-- ==== Sys2Proof/Word.lean ====
section
/-! DEFINITION. The word types of the PSA: 32-bit registers and table cells (R7, R18), 8-bit grid cells (R6). -/

namespace Sys2Proof

/-- A register, a table cell, a command word or a grid-memory address: 32 bits (R7, R9, R18, R69). -/
abbrev Word := BitVec 32

/-- A grid cell: an unsigned 8-bit value (R6). -/
abbrev Byte := BitVec 8

end Sys2Proof
end

