-- ==== Sys2Proof/Config.lean ====
section
/-! DEFINITION. What an instance of the PSA fixes (R5) and the free values: what the spec leaves at "any value"
(93_implementation_defined.md items 1, 2 and 6). A free value is an opaque constant: nothing in Lean can evaluate it. -/

namespace Sys2Proof

/-- The design-time parameters of an instance. R5: MAX_DIM is the only one; the model takes it as data. -/
structure Config where
  /-- MAX_DIM, the largest accepted width and height. -/
  maxDim : Nat
  deriving DecidableEq, Repr

/-- R5: "Its default is 4096." -/
def Config.default : Config := { maxDim := 4096 }

/-- The byte the grid memory holds at an address where the model has been told nothing: the oracle `gridMem` of
93 item 6 (log entry 3). -/
opaque Config.gridByte : Word → Byte

/-- The value of a cell (x, y) of VT whose contents the spec leaves unspecified (R43, R107, R153). The first argument
is State.epoch: cells lost at different times are unrelated (log entry 4). -/
opaque Config.freeValueCell : Nat → Nat → Nat → Word

/-- The same for NT (R44, R107, R153; log entry 4). -/
opaque Config.freeNonZeroCell : Nat → Nat → Nat → Word

end Sys2Proof
end

