-- ==== Sys2Proof/Syntax.lean ====
section
/-! DEFINITION. The commands of the PSA: one constructor for each row of spec/opcode_table.json (R73). A command has no
immediate and no register field (R71), so no constructor takes an argument. -/

namespace Sys2Proof

/-- The six commands of the opcode map (R73). -/
inductive Instr where
  /-- OP 0x0, R88. -/
  | nop
  /-- OP 0x1, R95. -/
  | build
  /-- OP 0x2, `sum(rect)`, R122. -/
  | qsum
  /-- OP 0x3, `average(rect)`, R124. -/
  | qavg
  /-- OP 0x4, `nonZeroCount(rect)`, R123. -/
  | qnzc
  /-- OP 0x5, `nonZeroAverage(rect)`, R125. -/
  | qnzavg
  deriving DecidableEq, Repr

end Sys2Proof
end

