-- ==== Sys2Proof/WellFormed.lean ====
section
/-! DEFINITION. Well-formedness: of a command (every command is well formed: it has no operand fields, R71) and of a
configuration (MAX_DIM in 1 to 4104, R5). A host access's well-formedness (R54) is Machine/HostPort.lean's
`Access.supported`. -/

namespace Sys2Proof

/-- R71: a command carries no immediate and no register field, so nothing about it can be ill formed. -/
def Instr.wellFormed : Instr → Bool
  | .nop => true
  | .build => true
  | .qsum => true
  | .qavg => true
  | .qnzc => true
  | .qnzavg => true

/-- R5: "Its legal values are the integers 1 to 4104 inclusive". A model refuses any other. -/
def Config.legal (c : Config) : Bool :=
  decide (1 ≤ c.maxDim) && decide (c.maxDim ≤ 4104)

end Sys2Proof
end

