-- ==== Sys2Proof/Decode.lean ====
section
/-! DEFINITION. The decoder of command words (R70, R77), total on every 32-bit word, and the encoder (R73). -/

namespace Sys2Proof

/-- Why a word is no command. Both are ILLEGAL (R74, R75) and complete with ILLEGAL_CMD (R89). -/
inductive Illegal where
  /-- R74: RSVD, bits 31:4, is not zero. -/
  | reservedBits
  /-- R75: RSVD is zero and OP is one of 0x6 to 0xF. -/
  | reservedOpcode
  deriving DecidableEq, Repr

/-- What a command word selects (R76): one of the six commands, or ILLEGAL. -/
inductive Command where
  | legal (i : Instr)
  | illegal (why : Illegal)
  deriving DecidableEq, Repr

/-- Field RSVD of format CMD, bits 31:4 (R70). -/
def rsvdField (w : Word) : BitVec 28 := w.extractLsb' 4 28

/-- Field OP of format CMD, bits 3:0 (R70). -/
def opField (w : Word) : BitVec 4 := w.extractLsb' 0 4

/-- The opcode map over OP when RSVD is zero (R73). -/
def decodeOp (op : BitVec 4) : Command :=
  if op = 0x0#4 then .legal .nop
  else if op = 0x1#4 then .legal .build
  else if op = 0x2#4 then .legal .qsum
  else if op = 0x3#4 then .legal .qavg
  else if op = 0x4#4 then .legal .qnzc
  else if op = 0x5#4 then .legal .qnzavg
  else .illegal .reservedOpcode

/-- The decoder of R77. -/
def decode (w : Word) : Command :=
  if rsvdField w ≠ 0 then .illegal .reservedBits else decodeOp (opField w)

/-- OP of each command (R73). -/
def opcode : Instr → BitVec 4
  | .nop => 0x0
  | .build => 0x1
  | .qsum => 0x2
  | .qavg => 0x3
  | .qnzc => 0x4
  | .qnzavg => 0x5

/-- The word of a command: RSVD = 0, then OP (R70, R73). -/
def encode (i : Instr) : Word := 0#28 ++ opcode i

/-- The command that the decoder reads from a word whose bits are `w`, `nbits` of them given by the opcode table and
every bit above them zero. Every command is one 32-bit word (R69), written whole to CMD: there is no byte order. -/
def decodeTableWord (nbits w : Nat) : Option Instr :=
  match decode (BitVec.ofNat 32 (w % 2 ^ nbits)) with
  | .legal i => some i
  | .illegal _ => none

end Sys2Proof
end

