-- ==== Sys2Proof/Machine/State.lean ====
section
/-! DEFINITION. The state of the PSA (10_state.md), of the grid memory beside it (20_memory.md) and of the host that
drives it (70_reset_and_hazards.md R169), as plain data; and the state after reset (R152). -/

namespace Sys2Proof.Machine

open Sys2Proof

/-- The completion codes of STATUS.ERR (R28, R135). Codes 6 to 15 are never written, so they have no constructor. -/
inductive Completion where
  /-- 0: the command completed normally. -/
  | ok
  /-- 1: BUILD with GRID_BASE = 0 (R96). -/
  | nullBuffer
  /-- 2: BUILD with a dimension zero or negative (R97). -/
  | invalidSize
  /-- 3: BUILD with a dimension above MAX_DIM (R98). -/
  | sizeLimit
  /-- 4: a query with VALID = 0 (R111). -/
  | noTable
  /-- 5: a reserved or malformed command word (R89). -/
  | illegalCmd
  deriving DecidableEq, Repr

/-- The command engine's state `eng` (R48). -/
inductive Eng where
  | idle
  | exec
  | building
  deriving DecidableEq, Repr

/-- The seven operand registers (R31 to R34). -/
structure Operands where
  width : Word
  height : Word
  gridBase : Word
  qx0 : Word
  qy0 : Word
  qx1 : Word
  qy1 : Word
  deriving DecidableEq, Repr

/-- The ten result registers (R35 to R40); RES_FLAGS is held as its two bits. -/
structure Results where
  sum : Word
  nzc : Word
  count : Word
  avgLo : Word
  avgHi : Word
  lowX : Word
  highX : Word
  lowY : Word
  highY : Word
  oor : Bool
  clipped : Bool
  deriving DecidableEq, Repr

/-- The operand snapshot of an accepted command: op, cmdword and a copy of the operand registers (R48, R84, R90). -/
structure Snapshot where
  op : Command
  cmdword : Word
  ops : Operands
  deriving DecidableEq, Repr

/-- The grid memory (R52): (address, byte) pairs, addresses strictly rising. An address that is not listed has no known
byte: a grid read there gives the oracle's byte (Machine/Ops.lean, log entry 3). -/
abbrev Memory := List Host.Cell

/-- One row of a table: (x, cell) pairs, x strictly rising. -/
abbrev Row := List (Nat × Word)

/-- A table VT or NT (R43, R44): (y, row) pairs, y strictly rising, no row empty. A cell that is not listed is
unspecified: reading it gives a free value (Machine/Ops.lean, log entry 4). -/
abbrev Table := List (Nat × Row)

/-- A host access to the register window as the bus carries it: its width in bits and its byte offset (R54). The PSA
decodes offset bits 7:0 only (R60). -/
structure Access where
  width : Nat
  off : BitVec 8
  deriving DecidableEq, Repr

/-- What a host program is made of (R78, R80): write a word, read a word, or poll STATUS until BUSY = 0. -/
inductive HostOp where
  | wr (a : Access) (v : Word)
  | rd (a : Access)
  | wait
  deriving DecidableEq, Repr

/-- Who takes the next atomic step (R63, R169): the host its next transaction, the engine its next step, another agent
of the platform a write to the grid memory (R65), or the platform's reset input changes level (R151). -/
inductive Turn where
  | host
  | engine
  | gridWrite (a : Word) (b : Byte)
  | setReset (level : Bool)
  deriving DecidableEq, Repr

structure State where
  /-- The instance's parameters (R5, R22). -/
  cfg : Config
  /-- CTRL.IE (R23). -/
  ie : Bool
  /-- The engine's state (R48); STATUS.BUSY is 1 exactly when it is not idle (R24). -/
  eng : Eng
  /-- STATUS.VALID (R25). -/
  valid : Bool
  /-- STATUS.DONE (R26). -/
  done : Bool
  /-- STATUS.DROP (R27). -/
  drop : Bool
  /-- STATUS.ERR (R28). -/
  err : Completion
  /-- WIDTH, HEIGHT, GRID_BASE, QX0, QY0, QX1, QY1 (R31 to R34). -/
  ops : Operands
  /-- The result registers (R35 to R40). -/
  res : Results
  /-- BUILT_WIDTH (R41). -/
  builtWidth : Word
  /-- BUILT_HEIGHT (R41). -/
  builtHeight : Word
  /-- The value table (R43). -/
  vt : Table
  /-- The non-zero table (R44). -/
  nt : Table
  /-- The operand snapshot (R48). -/
  snap : Snapshot
  /-- The build cursor's column (R49). -/
  cx : Nat
  /-- The build cursor's row (R49); equal to the height when the finish step is next (R103; log entry 6). -/
  cy : Nat
  /-- The grid memory (R52). -/
  grid : Memory
  /-- The reset input: true while reset is asserted (R151; log entry 7). -/
  rst : Bool
  /-- MODEL: what is left of the host's program (R78; log entry 2). -/
  host : List HostOp
  /-- MODEL: the turns to come (R63; log entry 1). -/
  sched : List Turn
  /-- MODEL: the words the host's reads have returned, newest first (R78; log entry 2). -/
  reads : List Word
  /-- MODEL: advanced whenever table contents are lost; selects the free values of unlisted cells (log entry 4). -/
  epoch : Nat
  deriving DecidableEq, Repr

/-- The reasons a step can fault: none. R61: "No access of the PSA can fault"; R134: "The PSA has no traps". Errors are
completion codes. -/
inductive Fault
  deriving DecidableEq, Repr

/-- The reasons a step is refused. -/
inductive Refusal where
  /-- An instruction that has no meaning yet. Raised by an arm of exec only; no arm raises it. Safe. -/
  | notModelled (mnemonic : String)
  /-- A host access of a width other than 32 bits or at a misaligned offset. Raised by the host's turn
  (Machine/HostPort.lean). R54: "the PSA gives it no meaning and a model refuses it". Safe. -/
  | unsupportedAccess (a : Access)
  /-- MAX_DIM outside 1 to 4104. Raised by step. R5: "A configuration outside that range is not a PSA; a model refuses
  it". Safe. -/
  | illegalConfig (maxDim : Nat)
  deriving DecidableEq, Repr

/-- The operand registers at reset (R31 to R34). -/
def Operands.zero : Operands :=
  { width := 0, height := 0, gridBase := 0, qx0 := 0, qy0 := 0, qx1 := 0, qy1 := 0 }

/-- The result registers at reset (R35 to R40), which is also what a query without a table writes (R111). -/
def Results.zero : Results :=
  { sum := 0, nzc := 0, count := 0, avgLo := 0, avgHi := 0, lowX := 0, highX := 0, lowY := 0, highY := 0,
    oor := false, clipped := false }

/-- The snapshot at reset: unspecified in the spec (R48, never read while IDLE), zero here. DESIGN CHOICE, log entry 5. -/
def Snapshot.zero : Snapshot := { op := .legal .nop, cmdword := 0, ops := Operands.zero }

/-- The machine right after reset (R152), MAX_DIM at its default (R5), reset released, no grid placed, no host program
(log entries 1, 2, 5, 7). -/
def State.reset : State :=
  { cfg := Config.default, ie := false, eng := .idle, valid := false, done := false, drop := false, err := .ok,
    ops := Operands.zero, res := Results.zero, builtWidth := 0, builtHeight := 0, vt := [], nt := [],
    snap := Snapshot.zero, cx := 0, cy := 0, grid := [], rst := false, host := [], sched := [], reads := [], epoch := 0 }

end Sys2Proof.Machine
end

