-- ==== Sys2Proof/Machine/Flags.lean ====
section
/-! DEFINITION. The flag words: STATUS, CTRL and RES_FLAGS as the host reads them, the completion codes, the W1C rule
and the IRQ output. -/

namespace Sys2Proof.Machine

open Sys2Proof

/-- The 4-bit completion code (R28, R135). -/
def Completion.code : Completion → BitVec 4
  | .ok => 0
  | .nullBuffer => 1
  | .invalidSize => 2
  | .sizeLimit => 3
  | .noTable => 4
  | .illegalCmd => 5

/-- STATUS.BUSY (R24, R48): 1 exactly when eng is not IDLE. -/
def State.busy (s : State) : Bool := s.eng != .idle

/-- STATUS as a word (R29): 24 zeros, ERR, DROP, DONE, VALID, BUSY. -/
def statusWord (s : State) : Word :=
  0#24 ++ s.err.code ++ BitVec.ofBool s.drop ++ BitVec.ofBool s.done ++ BitVec.ofBool s.valid ++ BitVec.ofBool s.busy

/-- CTRL as a word (R23): IE in bit 0, the rest zero. -/
def ctrlWord (s : State) : Word := 0#31 ++ BitVec.ofBool s.ie

/-- RES_FLAGS as a word (R40): CLIPPED in bit 1, OOR in bit 0, the rest zero. -/
def resFlagsWord (r : Results) : Word := 0#30 ++ BitVec.ofBool r.clipped ++ BitVec.ofBool r.oor

/-- PARAM as a word (R22): CELLW = 8, ACCW = 32, MAXDIM. -/
def paramWord (c : Config) : Word := 8#8 ++ 32#8 ++ BitVec.ofNat 16 c.maxDim

/-- The ID constant (R21). -/
def idWord : Word := 0x50534131

/-- A write-one-to-clear bit (R20): writing 1 clears it, writing 0 leaves it. -/
def w1c (old written : Bool) : Bool := old && !written

/-- A host write to STATUS (R29): only DONE (bit 2) and DROP (bit 3) change, each by W1C. -/
def writeStatus (v : Word) (s : State) : State :=
  { s with done := w1c s.done (v.getLsbD 2), drop := w1c s.drop (v.getLsbD 3) }

/-- A host write to CTRL (R23): bit 0 is IE, the other bits are ignored. -/
def writeCtrl (v : Word) (s : State) : State := { s with ie := v.getLsbD 0 }

/-- The IRQ output (R50): IE AND DONE. -/
def State.irq (s : State) : Bool := s.ie && s.done

end Sys2Proof.Machine
end

