-- ==== Sys2Proof/Machine/Operands.lean ====
section
/-! DEFINITION. Operand decoding (R72) and the canonicalization every query shares (R112 to R115, R120), on mathematical
integers (R12), and the grid address of a cell (R15). -/

namespace Sys2Proof.Machine

open Sys2Proof

/-- `sint32` (R12): the 32-bit pattern read as two's complement. -/
abbrev sint32 (v : Word) : Int := v.toInt

/-- W of BUILD (R72). -/
def Operands.buildWidth (o : Operands) : Int := sint32 o.width

/-- H of BUILD (R72). -/
def Operands.buildHeight (o : Operands) : Int := sint32 o.height

/-- BUILD's INVALID_SIZE test (R97). -/
def Operands.invalidSize (o : Operands) : Bool := decide (o.buildWidth ≤ 0) || decide (o.buildHeight ≤ 0)

/-- BUILD's SIZE_LIMIT test (R98). -/
def Operands.overLimit (o : Operands) (maxDim : Nat) : Bool :=
  decide (o.buildWidth > maxDim) || decide (o.buildHeight > maxDim)

/-- The grid-memory address of grid cell (x, y) of a grid at `base` of width `w`: (base + y*w + x) mod 2^32 (R15, R55). -/
def gridAddr (base : Word) (w x y : Nat) : Word := BitVec.ofNat 32 (base.toNat + y * w + x)

/-- A rectangle after the swap: columns a0 to a1, rows b0 to b1, inclusive (R16). -/
structure Rect where
  a0 : Int
  b0 : Int
  a1 : Int
  b1 : Int
  deriving DecidableEq, Repr

/-- Canonicalization step 1 (R112): each coordinate pair in increasing order. -/
def canonRect (o : Operands) : Rect :=
  let x0 := sint32 o.qx0
  let y0 := sint32 o.qy0
  let x1 := sint32 o.qx1
  let y1 := sint32 o.qy1
  { a0 := if x0 > x1 then x1 else x0
    b0 := if y0 > y1 then y1 else y0
    a1 := if x0 > x1 then x0 else x1
    b1 := if y0 > y1 then y0 else y1 }

/-- Canonicalization step 2 (R113): the rectangle does not meet the `w` by `h` grid. -/
def outOfRange (r : Rect) (w h : Int) : Bool :=
  decide (r.a1 < 0) || decide (r.b1 < 0) || decide (r.a0 > w - 1) || decide (r.b0 > h - 1)

/-- Clamped padded table indices (R114). -/
structure Clamped where
  lowX : Nat
  highX : Nat
  lowY : Nat
  highY : Nat
  deriving DecidableEq, Repr

/-- Canonicalization step 3 (R114), for a rectangle that is not out of range, where all four values are at least 0. -/
def clampRect (r : Rect) (w h : Int) : Clamped :=
  { lowX := (max 0 r.a0).toNat
    highX := (min (r.a1 + 1) w).toNat
    lowY := (max 0 r.b0).toNat
    highY := (min (r.b1 + 1) h).toNat }

/-- The element count (R115): the clamped footprint. -/
def elementCount (c : Clamped) : Nat := (c.highX - c.lowX) * (c.highY - c.lowY)

/-- The clipped flag (R120). -/
def clippedRect (r : Rect) (w h : Int) : Bool :=
  decide (r.a0 < 0) || decide (r.b0 < 0) || decide (r.a1 > w - 1) || decide (r.b1 > h - 1)

end Sys2Proof.Machine
end

