-- ==== Sys2Proof/Machine/Ops.lean ====
section
/-! DEFINITION. The named operations over memory, tables and registers, and the two shared steps of a command's life:
acceptance (R84, R85) and completion (R86). Completion is the PSA's one way to report an error: it has no traps (R134,
R143), so there is no exception entry and no return (R144). -/

namespace Sys2Proof.Machine

open Sys2Proof

/-- The value a list of (key, value) pairs with rising keys holds at a key. -/
def findKey {β : Type} (k : Nat) : List (Nat × β) → Option β
  | [] => none
  | (k', v) :: rest => if k = k' then some v else findKey k rest

/-- Put a value at a key, in key order, replacing what stood there. -/
def insertKey {β : Type} (k : Nat) (v : β) : List (Nat × β) → List (Nat × β)
  | [] => [(k, v)]
  | (k', v') :: rest =>
    if k < k' then (k, v) :: (k', v') :: rest
    else if k = k' then (k, v) :: rest
    else (k', v') :: insertKey k v rest

/-- The keys rise strictly. -/
def risingKeys {β : Type} : List (Nat × β) → Bool
  | [] => true
  | [_] => true
  | (k, _) :: (k', v') :: rest => decide (k < k') && risingKeys ((k', v') :: rest)

/-! ### The grid memory -/

/-- The canonical form of the grid memory: rising addresses below 2^32 (R52). An unlisted address has no known byte, so
no listed one can equal it. -/
def Memory.wf (m : Memory) : Bool := risingKeys m && m.all fun c => decide (c.1 < 2 ^ 32)

/-- The byte listed at an address, if any. -/
def Memory.read (m : Memory) (a : Word) : Option Byte := findKey a.toNat m

/-- Another agent of the platform writes a byte (R52, R65). The PSA never does. -/
def Memory.write (m : Memory) (a : Word) (b : Byte) : Memory := insertKey a.toNat b m

/-- `GridRead(a)` (R55): the byte the grid memory holds at address `a` now. Never an error. -/
def gridRead (s : State) (a : Word) : Byte := (s.grid.read a).getD (Config.gridByte a)

/-! ### The tables -/

/-- The canonical form of a table: rows in rising y, none empty, cells in rising x. -/
def Table.wf (t : Table) : Bool := risingKeys t && t.all fun r => !r.2.isEmpty && risingKeys r.2

/-- The cell T[x][y], if it is listed. -/
def Table.read (t : Table) (x y : Nat) : Option Word := (findKey y t).bind (findKey x)

/-- `T[x][y] <- v` (R13). -/
def Table.write (t : Table) (x y : Nat) (v : Word) : Table :=
  insertKey y (insertKey x v ((findKey y t).getD [])) t

/-- The zero border of a `w` by `h` table and nothing else (R100): T[x][0] = 0 for x in 0 .. w, T[0][y] = 0 for y in
0 .. h. -/
def Table.border (w h : Nat) : Table :=
  (0, (List.range (w + 1)).map fun x => (x, 0)) :: (List.range h).map fun y => (y + 1, [(0, 0)])

/-- VT[x][y] (R13, R43); a cell whose contents are unspecified gives a free value (log entry 4). -/
def vtCell (s : State) (x y : Nat) : Word := (s.vt.read x y).getD (Config.freeValueCell s.epoch x y)

/-- NT[x][y] (R13, R44); likewise. -/
def ntCell (s : State) (x y : Nat) : Word := (s.nt.read x y).getD (Config.freeNonZeroCell s.epoch x y)

/-- `LOOKUP(T)` (R116, R118), modulo 2^32; `cell` reads the table. -/
def lookup (cell : Nat → Nat → Word) (c : Clamped) : Word :=
  cell c.highX c.highY + cell c.lowX c.lowY - cell c.lowX c.highY - cell c.highX c.lowY

/-- `nz(v)` (R15). -/
def nz (v : Byte) : Word := if v = 0 then 0 else 1

/-! ### A command's life -/

/-- `complete(code)` (R86): ERR, DONE, BUSY. -/
def complete (code : Completion) (s : State) : State := { s with err := code, done := true, eng := .idle }

/-- Acceptance of word `w` (R84): the snapshot, DONE <- 0, BUSY <- 1. -/
def accept (w : Word) (s : State) : State :=
  { s with snap := { op := decode w, cmdword := w, ops := s.ops }, done := false, eng := .exec }

/-- A host write of `w` to CMD: accepted when the engine is idle (R84), else dropped (R85). -/
def writeCmd (w : Word) (s : State) : State :=
  if s.eng = .idle then accept w s else { s with drop := true }

/-! ### The register window -/

/-- The registers of R19. -/
inductive RegName where
  | id | param | ctrl | status | cmd
  | width | height | gridBase | qx0 | qy0 | qx1 | qy1
  | resSum | resNzc | resCount | resAvgLo | resAvgHi | resLowX | resHighX | resLowY | resHighY | resFlags
  | builtWidth | builtHeight
  deriving DecidableEq, Repr

/-- The register map (R19). -/
def regMap : List (BitVec 8 × RegName) :=
  [(0x00, .id), (0x04, .param), (0x08, .ctrl), (0x0C, .status), (0x10, .cmd), (0x14, .width), (0x18, .height),
   (0x1C, .gridBase), (0x20, .qx0), (0x24, .qy0), (0x28, .qx1), (0x2C, .qy1)] ++
  [(0x30, .resSum), (0x34, .resNzc), (0x38, .resCount), (0x3C, .resAvgLo), (0x40, .resAvgHi), (0x44, .resLowX),
   (0x48, .resHighX), (0x4C, .resLowY), (0x50, .resHighY), (0x54, .resFlags), (0x58, .builtWidth), (0x5C, .builtHeight)]

/-- The register at an aligned offset; none for the reserved offsets 0x60 to 0xFC (R42). -/
def regAt (off : BitVec 8) : Option RegName := (regMap.find? fun e => e.1 == off).map Prod.snd

/-- The word a host read of a register returns (R20 and each register's rule). -/
def readReg (s : State) : RegName → Word
  | .id => idWord
  | .param => paramWord s.cfg
  | .ctrl => ctrlWord s
  | .status => statusWord s
  | .cmd => 0
  | .width => s.ops.width
  | .height => s.ops.height
  | .gridBase => s.ops.gridBase
  | .qx0 => s.ops.qx0
  | .qy0 => s.ops.qy0
  | .qx1 => s.ops.qx1
  | .qy1 => s.ops.qy1
  | .resSum => s.res.sum
  | .resNzc => s.res.nzc
  | .resCount => s.res.count
  | .resAvgLo => s.res.avgLo
  | .resAvgHi => s.res.avgHi
  | .resLowX => s.res.lowX
  | .resHighX => s.res.highX
  | .resLowY => s.res.lowY
  | .resHighY => s.res.highY
  | .resFlags => resFlagsWord s.res
  | .builtWidth => s.builtWidth
  | .builtHeight => s.builtHeight

/-- What a host write of a word to a register does (R20 and each register's rule): RO registers ignore it. -/
def writeReg (r : RegName) (v : Word) (s : State) : State :=
  match r with
  | .id => s
  | .param => s
  | .ctrl => writeCtrl v s
  | .status => writeStatus v s
  | .cmd => writeCmd v s
  | .width => { s with ops := { s.ops with width := v } }
  | .height => { s with ops := { s.ops with height := v } }
  | .gridBase => { s with ops := { s.ops with gridBase := v } }
  | .qx0 => { s with ops := { s.ops with qx0 := v } }
  | .qy0 => { s with ops := { s.ops with qy0 := v } }
  | .qx1 => { s with ops := { s.ops with qx1 := v } }
  | .qy1 => { s with ops := { s.ops with qy1 := v } }
  | .resSum => s
  | .resNzc => s
  | .resCount => s
  | .resAvgLo => s
  | .resAvgHi => s
  | .resLowX => s
  | .resHighX => s
  | .resLowY => s
  | .resHighY => s
  | .resFlags => s
  | .builtWidth => s
  | .builtHeight => s

/-- The word at an offset: the register's, or 0 at a reserved offset (R42). -/
def readOffset (s : State) (off : BitVec 8) : Word :=
  match regAt off with
  | some r => readReg s r
  | none => 0

/-- A write at an offset: the register's, or nothing at a reserved offset (R42). -/
def writeOffset (off : BitVec 8) (v : Word) (s : State) : State :=
  match regAt off with
  | some r => writeReg r v s
  | none => s

/-! ### Reset -/

/-- Every state element of the PSA at its reset value (R151 to R154), the level of the reset input as given. The grid
memory, the host and the turns to come are not the PSA's and stay; the table contents are lost, so the free values of
their cells are drawn anew (R153, log entry 4). -/
def resetPsa (level : Bool) (s : State) : State :=
  { State.reset with
    cfg := s.cfg, grid := s.grid, host := s.host, sched := s.sched, reads := s.reads
    rst := level, epoch := s.epoch + 1 }

end Sys2Proof.Machine
end

