-- ==== Sys2Proof/Machine/Build.lean ====
section
/-! DEFINITION. BUILD, the Table Builder (41_build.md): the EXEC step with its checks, the start step, the cell steps
and the finish step. -/

namespace Sys2Proof.Machine

open Sys2Proof

/-- The start step (R100): VALID <- 0, the zero borders, the cursor at (0, 0), BUILDING. "From this step the previous
table pair is lost": the other cells become unspecified (R107, 93 items 1 and 2; log entry 4). -/
def buildStart (w h : Nat) (s : State) : State :=
  { s with
    valid := false, vt := Table.border w h, nt := Table.border w h, cx := 0, cy := 0, eng := .building
    epoch := s.epoch + 1 }

/-- The width of the BUILD that is running. -/
def State.runWidth (s : State) : Nat := s.snap.ops.buildWidth.toNat

/-- The height of the BUILD that is running. -/
def State.runHeight (s : State) : Nat := s.snap.ops.buildHeight.toNat

/-- BUILD's EXEC step (R95): the checks in the order of R99, then the start step. -/
def execBuild (s : State) : Host.Outcome State Fault Refusal :=
  if s.snap.ops.gridBase = 0 then .next (complete .nullBuffer s)
  else if s.snap.ops.invalidSize then .next (complete .invalidSize s)
  else if s.snap.ops.overLimit s.cfg.maxDim then .next (complete .sizeLimit s)
  else .next (buildStart s.runWidth s.runHeight s)

/-- The grid byte the cell step reads (R101). -/
def cellByte (s : State) : Byte := gridRead s (gridAddr s.snap.ops.gridBase s.runWidth s.cx s.cy)

/-- The recurrence of R101 and R102, modulo 2^32 (R104): the value term plus left plus above minus above-left. -/
def recurrence (v : Word) (cell : Nat → Nat → Word) (cx cy : Nat) : Word :=
  v + cell cx (cy + 1) + cell (cx + 1) cy - cell cx cy

/-- One cell step: R101 and R102 with the same byte, then the cursor (R103). -/
def buildCell (s : State) : State :=
  let v := cellByte s
  { s with
    vt := s.vt.write (s.cx + 1) (s.cy + 1) (recurrence (v.setWidth 32) (vtCell s) s.cx s.cy)
    nt := s.nt.write (s.cx + 1) (s.cy + 1) (recurrence (nz v) (ntCell s) s.cx s.cy)
    cx := if s.cx + 1 = s.runWidth then 0 else s.cx + 1
    cy := if s.cx + 1 = s.runWidth then s.cy + 1 else s.cy }

/-- The finish step (R105). -/
def buildFinish (s : State) : State :=
  complete .ok
    { s with builtWidth := BitVec.ofNat 32 s.runWidth, builtHeight := BitVec.ofNat 32 s.runHeight, valid := true }

/-- One step in BUILDING: a cell step, or the finish step once the cursor has passed the last row (R103; log entry 6). -/
def buildStep (s : State) : Host.Outcome State Fault Refusal :=
  if s.cy = s.runHeight then .next (buildFinish s) else .next (buildCell s)

end Sys2Proof.Machine
end

