-- ==== Sys2Proof/Machine/Control.lean ====
section
/-! DEFINITION. The commands that compute nothing: NOP (R88) and the illegal command (R89). -/

namespace Sys2Proof.Machine

open Sys2Proof

/-- NOP (R88): complete(OK) and nothing else. -/
def execNop (s : State) : Host.Outcome State Fault Refusal := .next (complete .ok s)

/-- The illegal command (R89): complete(ILLEGAL_CMD) and nothing else. It is no row of the opcode table, so no arm of
exec calls it; the engine does (Machine/Engine.lean). -/
def execIllegal (s : State) : Host.Outcome State Fault Refusal := .next (complete .illegalCmd s)

end Sys2Proof.Machine
end

