-- ==== Sys2Proof/Machine/Float.lean ====
section
/-! DEFINITION. `fdiv64` (R126): the IEEE 754 binary64 value nearest to a quotient of unsigned integers, ties to even,
computed exactly on natural numbers. The binary64 layout (sign bit 63, exponent bits 62:52 with bias 1023, fraction bits
51:0) is 93_implementation_defined.md G1. -/

namespace Sys2Proof.Machine

open Sys2Proof

/-- The natural number nearest to n / d, ties to even (d > 0). -/
def divNearestEven (n d : Nat) : Nat :=
  let q := n / d
  let r := n % d
  if 2 * r > d ∨ (2 * r = d ∧ q % 2 = 1) then q + 1 else q

/-- 64 + floor(log2 (s / d)), for 0 < s and 0 < d below 2^64. -/
def quotientLog (s d : Nat) : Nat := Nat.log2 (s * 2 ^ 64 / d)

/-- `fdiv64(s, d)` (R126) for 0 ≤ s < 2^32 and 1 ≤ d < 2^32. With e = quotientLog - 64, the quotient scaled by 2^(52-e)
lies in 2^52 .. 2^53 and is rounded to an integer there; writing the exponent field one too low lets the significand's
leading one, or its carry to 2^53, complete it. d = 0 has no value in R126 and cannot occur; it gives +0.0 (DEDUCED from
R124's quoted guard, log entry 11). -/
def fdiv64 (s d : Nat) : BitVec 64 :=
  if s = 0 ∨ d = 0 then 0
  else
    let l := quotientLog s d
    BitVec.ofNat 64 ((l + 958) * 2 ^ 52 + divNearestEven (s * 2 ^ (116 - l)) d)

end Sys2Proof.Machine
end

