-- ==== Sys2Proof/Machine/Query.lean ====
section
/-! DEFINITION. The four queries (42_query.md) over one shared step. -/

namespace Sys2Proof.Machine

open Sys2Proof

/-- What a query kind computes for itself when it is in range (R122 to R125): RES_SUM, RES_NZC and the average. -/
structure OwnResults where
  sum : Word
  nzc : Word
  avg : BitVec 64
  deriving DecidableEq, Repr

/-- The result registers of an out-of-range query (R119). -/
def oorResults : Results := { Results.zero with oor := true }

/-- The result registers of an in-range query (R121 and the kind's own): the average is split LO = bits 31:0,
HI = bits 63:32 (R38). -/
def inRangeResults (own : OwnResults) (c : Clamped) (clipped : Bool) : Results :=
  { sum := own.sum
    nzc := own.nzc
    count := BitVec.ofNat 32 (elementCount c)
    avgLo := own.avg.extractLsb' 0 32
    avgHi := own.avg.extractLsb' 32 32
    lowX := BitVec.ofNat 32 c.lowX
    highX := BitVec.ofNat 32 c.highX
    lowY := BitVec.ofNat 32 c.lowY
    highY := BitVec.ofNat 32 c.highY
    oor := false
    clipped := clipped }

/-- W of a query: BUILT_WIDTH, unsigned (R41, R112, R132). -/
def State.tableWidth (s : State) : Int := s.builtWidth.toNat

/-- H of a query: BUILT_HEIGHT (R41, R112, R132). -/
def State.tableHeight (s : State) : Int := s.builtHeight.toNat

/-- The canonical rectangle of the running query (R112), from the snapshot (R90). -/
def State.queryRect (s : State) : Rect := canonRect s.snap.ops

/-- The running query is out of range (R113). -/
def State.queryOor (s : State) : Bool := outOfRange s.queryRect s.tableWidth s.tableHeight

/-- Its clamped indices (R114). -/
def State.queryClamp (s : State) : Clamped := clampRect s.queryRect s.tableWidth s.tableHeight

/-- Its clipped flag (R120). -/
def State.queryClipped (s : State) : Bool := clippedRect s.queryRect s.tableWidth s.tableHeight

/-- The one step of every query: the table check (R111), the out-of-range completion (R119), the in-range one (R121).
`own` is what the kind computes from the clamped indices. -/
def runQuery (own : Clamped → OwnResults) (s : State) : Host.Outcome State Fault Refusal :=
  if s.valid then
    if s.queryOor then .next (complete .ok { s with res := oorResults })
    else .next (complete .ok { s with res := inRangeResults (own s.queryClamp) s.queryClamp s.queryClipped })
  else .next (complete .noTable { s with res := Results.zero })

/-- QSUM's own results (R122): the value-table aggregate. -/
def ownQsum (s : State) (c : Clamped) : OwnResults := { sum := lookup (vtCell s) c, nzc := 0, avg := 0 }

/-- QAVG's own results (R124): the denominator is the element count. -/
def ownQavg (s : State) (c : Clamped) : OwnResults :=
  let sum := lookup (vtCell s) c
  { sum := sum, nzc := 0, avg := fdiv64 sum.toNat (elementCount c) }

/-- QNZC's own results (R123): the non-zero-table aggregate. -/
def ownQnzc (s : State) (c : Clamped) : OwnResults := { sum := 0, nzc := lookup (ntCell s) c, avg := 0 }

/-- QNZAVG's own results (R125): both aggregates, the division guarded when the non-zero count is 0. -/
def ownQnzavg (s : State) (c : Clamped) : OwnResults :=
  let sum := lookup (vtCell s) c
  let n := lookup (ntCell s) c
  { sum := sum, nzc := n, avg := if n = 0 then 0 else fdiv64 sum.toNat n.toNat }

/-- QSUM (R122). -/
def execQsum (s : State) : Host.Outcome State Fault Refusal := runQuery (ownQsum s) s

/-- QAVG (R124). -/
def execQavg (s : State) : Host.Outcome State Fault Refusal := runQuery (ownQavg s) s

/-- QNZC (R123). -/
def execQnzc (s : State) : Host.Outcome State Fault Refusal := runQuery (ownQnzc s) s

/-- QNZAVG (R125). -/
def execQnzavg (s : State) : Host.Outcome State Fault Refusal := runQuery (ownQnzavg s) s

end Sys2Proof.Machine
end

