-- ==== Sys2Proof/Machine/Dispatch.lean ====
section
/-! DEFINITION. The meaning of each command: the EXEC step selected by snap.op (R87). -/

namespace Sys2Proof.Machine

open Sys2Proof

def exec (i : Instr) (s : State) : Host.Outcome State Fault Refusal :=
  match i with
  | .nop => Sys2Proof.Machine.execNop s
  | .build => Sys2Proof.Machine.execBuild s
  | .qsum => Sys2Proof.Machine.execQsum s
  | .qavg => Sys2Proof.Machine.execQavg s
  | .qnzc => Sys2Proof.Machine.execQnzc s
  | .qnzavg => Sys2Proof.Machine.execQnzavg s

end Sys2Proof.Machine
end

