-- ==== Sys2Proof/Machine/Engine.lean ====
section
/-! DEFINITION. The command engine's step (R48, R87). -/

namespace Sys2Proof.Machine

open Sys2Proof

/-- One engine step (R87). In IDLE the engine has no step to take and nothing changes. -/
def engineStep (s : State) : Host.Outcome State Fault Refusal :=
  match s.eng with
  | .idle => .next s
  | .exec =>
    match s.snap.op with
    | .legal i => exec i s
    | .illegal _ => execIllegal s
  | .building => buildStep s

/-- The engine's turn: while reset is asserted it takes no step (R151). -/
def engineTurn (s : State) : Host.Outcome State Fault Refusal :=
  if s.rst then .next s else engineStep s

/-- The engine can step: it is busy and reset is not asserted (R166). -/
def State.engineReady (s : State) : Bool := s.busy && !s.rst

end Sys2Proof.Machine
end

