-- ==== Sys2Proof/Machine/HostPort.lean ====
section
/-! DEFINITION. The host's side: register accesses (R54), transactions and WAIT (R78, R80), and the platform's own moves
(R65, R151, R169). -/

namespace Sys2Proof.Machine

open Sys2Proof

/-- R54: the PSA supports an access of one whole 32-bit register at a word-aligned offset. -/
def Access.supported (a : Access) : Bool := decide (a.width = 32) && a.off.extractLsb' 0 2 == 0

/-- The 32-bit access at an offset. -/
def Access.word (off : BitVec 8) : Access := { width := 32, off := off }

/-- `WR off, v` (R78). While reset is asserted a write has no effect (R151). -/
def hostWrite (a : Access) (v : Word) (s : State) : Host.Outcome State Fault Refusal :=
  if a.supported then .next (if s.rst then s else writeOffset a.off v s)
  else .refused (.unsupportedAccess a)

/-- `RD off` (R78): the word is returned to the host; no other effect (R59). -/
def hostRead (a : Access) (s : State) : Host.Outcome State Fault Refusal :=
  if a.supported then .next { s with reads := readOffset s a.off :: s.reads }
  else .refused (.unsupportedAccess a)

/-- One round of WAIT (R80): a `RD STATUS`; the loop ends when bit 0 (BUSY) of the word read is 0. `rest` is the program
after the WAIT. -/
def hostPoll (rest : List HostOp) (s : State) : State :=
  let v := readReg s .status
  { s with reads := v :: s.reads, host := if v.getLsbD 0 then .wait :: rest else rest }

/-- The host's turn: its next transaction, in program order (R62). A host whose program has ended does nothing. -/
def hostTurn (s : State) : Host.Outcome State Fault Refusal :=
  match s.host with
  | [] => .next s
  | .wr a v :: rest => hostWrite a v { s with host := rest }
  | .rd a :: rest => hostRead a { s with host := rest }
  | .wait :: rest => .next (hostPoll rest s)

/-- Another agent writes one byte of the grid memory (R52, R65). -/
def gridWriteTurn (a : Word) (b : Byte) (s : State) : State := { s with grid := s.grid.write a b }

end Sys2Proof.Machine
end

