-- ==== Sys2Proof/Machine/Turns.lean ====
section
/-! DEFINITION. The agents' turns (R63, R169): what each one does, and whose it is when none is listed (log entry 1). -/

namespace Sys2Proof.Machine

open Sys2Proof

/-- One agent's turn. -/
def takeTurn (t : Turn) (s : State) : Host.Outcome State Fault Refusal :=
  match t with
  | .host => hostTurn s
  | .engine => engineTurn s
  | .gridWrite a b => .next (gridWriteTurn a b s)
  | .setReset level => .next (resetPsa level s)

/-- The turn when none is listed (log entry 1). -/
def State.defaultTurn (s : State) : Turn := if s.engineReady then .engine else .host

/-- The state just after the host's CMD write of a word was accepted (R84), reset released, the engine's turn next (log
entry 2). -/
def placeCommand (w : Word) (s : State) : State :=
  { accept w s with rst := false, sched := .engine :: s.sched }

end Sys2Proof.Machine
end

