-- ==== Sys2Proof/Machine/Step.lean ====
section
/-! DEFINITION. One atomic step of the whole (R63): the turn that stands first in the list of turns, or, when the list is
used up, the engine's if it can step and else the host's (log entry 1). -/

namespace Sys2Proof.Machine

open Sys2Proof

def step (s : State) : Host.Outcome State Fault Refusal :=
  if s.cfg.legal then
    match s.sched with
    | t :: rest => takeTurn t { s with sched := rest }
    | [] => takeTurn s.defaultTurn s
  else .refused (.illegalConfig s.cfg.maxDim)

/-- The state in which the next step runs the command of a word: the PSA fetches nothing (R47), so this stands for the
accepted CMD write of the word (R84; log entry 2). -/
def State.withFetchWord (s : State) (nbits w : Nat) : State := placeCommand (BitVec.ofNat 32 (w % 2 ^ nbits)) s

end Sys2Proof.Machine
end

