-- ==== Sys2Proof/Machine/Assembler.lean ====
section
/-! DEFINITION. The host assembler (R79 to R83): lines, pseudo-instructions and their expansion into transactions, and
the reading of a line's text. -/

namespace Sys2Proof.Machine

open Sys2Proof

/-- The offset of each register (R19), for the assembler's register names (R79). -/
def RegName.offset (r : RegName) : BitVec 8 :=
  match regMap.find? fun e => e.2 == r with
  | some e => e.1
  | none => 0

/-- `WR <reg>, <value>` as a transaction. -/
def wrOp (r : RegName) (v : Word) : HostOp := .wr (.word r.offset) v

/-- A command's mnemonic alone: `WR CMD, <word>` (R79). -/
def commandOp (i : Instr) : HostOp := wrOp .cmd (encode i)

/-- A line of a host program (R79 to R83). -/
inductive AsmLine where
  /-- A line with nothing but blanks and a comment. -/
  | empty
  | wr (off : BitVec 8) (v : Word)
  | rd (off : BitVec 8)
  /-- `RD <reg> -> <expected>`: an expectation in a test, not another kind of transaction (R79). -/
  | rdExpect (off : BitVec 8) (v : Word)
  | command (i : Instr)
  | wait
  | build (base w h : Word)
  | qsum (x0 y0 x1 y1 : Word)
  | qavg (x0 y0 x1 y1 : Word)
  | qnzc (x0 y0 x1 y1 : Word)
  | qnzavg (x0 y0 x1 y1 : Word)
  | clear
  | irqon
  | irqoff
  deriving DecidableEq, Repr

/-- A query pseudo-instruction's transactions (R82). -/
def queryOps (i : Instr) (x0 y0 x1 y1 : Word) : List HostOp :=
  [wrOp .qx0 x0, wrOp .qy0 y0, wrOp .qx1 x1, wrOp .qy1 y1, commandOp i, .wait]

/-- The transactions of a line (R79 to R83). -/
def AsmLine.expand : AsmLine → List HostOp
  | .empty => []
  | .wr off v => [.wr (.word off) v]
  | .rd off => [.rd (.word off)]
  | .rdExpect off _ => [.rd (.word off)]
  | .command i => [commandOp i]
  | .wait => [.wait]
  | .build base w h => [wrOp .gridBase base, wrOp .width w, wrOp .height h, commandOp .build, .wait]
  | .qsum x0 y0 x1 y1 => queryOps .qsum x0 y0 x1 y1
  | .qavg x0 y0 x1 y1 => queryOps .qavg x0 y0 x1 y1
  | .qnzc x0 y0 x1 y1 => queryOps .qnzc x0 y0 x1 y1
  | .qnzavg x0 y0 x1 y1 => queryOps .qnzavg x0 y0 x1 y1
  | .clear => [wrOp .status 0x0000000C]
  | .irqon => [wrOp .ctrl 0x00000001]
  | .irqoff => [wrOp .ctrl 0x00000000]

/-! ### The text of a line -/

/-- The register names of R19. -/
def regNames : List (String × RegName) :=
  [("ID", .id), ("PARAM", .param), ("CTRL", .ctrl), ("STATUS", .status), ("CMD", .cmd), ("WIDTH", .width),
   ("HEIGHT", .height), ("GRID_BASE", .gridBase), ("QX0", .qx0), ("QY0", .qy0), ("QX1", .qx1), ("QY1", .qy1)] ++
  [("RES_SUM", .resSum), ("RES_NZC", .resNzc), ("RES_COUNT", .resCount), ("RES_AVG_LO", .resAvgLo),
   ("RES_AVG_HI", .resAvgHi), ("RES_LOWX", .resLowX), ("RES_HIGHX", .resHighX), ("RES_LOWY", .resLowY),
   ("RES_HIGHY", .resHighY), ("RES_FLAGS", .resFlags), ("BUILT_WIDTH", .builtWidth), ("BUILT_HEIGHT", .builtHeight)]

/-- The command mnemonics of R73. -/
def mnemonics : List (String × Instr) :=
  [("NOP", .nop), ("BUILD", .build), ("QSUM", .qsum), ("QAVG", .qavg), ("QNZC", .qnzc), ("QNZAVG", .qnzavg)]

/-- What a table of names gives for a token. -/
def named {β : Type} (table : List (String × β)) (token : List Char) : Option β :=
  (table.find? fun e => e.1.toList == token).map Prod.snd

/-- A digit's value in a base up to 16. -/
def digitValue (base : Nat) (c : Char) : Option Nat :=
  let n := c.toNat
  let v := if 48 ≤ n ∧ n ≤ 57 then n - 48 else if 65 ≤ n ∧ n ≤ 70 then n - 55 else if 97 ≤ n ∧ n ≤ 102 then n - 87 else 16
  if v < base then some v else none

/-- Digits in a base, an underscore between groups skipped (R11); `acc` is the value so far. -/
def digitsFrom (base acc : Nat) : List Char → Option Nat
  | [] => some acc
  | c :: rest =>
    if c = '_' then digitsFrom base acc rest
    else (digitValue base c).bind fun d => digitsFrom base (acc * base + d) rest

/-- A decimal or `0x` hexadecimal number (R79). -/
def parseNat : List Char → Option Nat
  | [] => none
  | '0' :: 'x' :: c :: rest => (digitValue 16 c).bind fun d => digitsFrom 16 d rest
  | c :: rest => (digitValue 10 c).bind fun d => digitsFrom 10 d rest

/-- A number below 2^32, or a negative one whose `-n` stands for the pattern 2^32 - n (R79). -/
def parseWord : List Char → Option Word
  | '-' :: rest => (parseNat rest).bind fun n => if n < 2 ^ 32 then some (-BitVec.ofNat 32 n) else none
  | token => (parseNat token).bind fun n => if n < 2 ^ 32 then some (BitVec.ofNat 32 n) else none

/-- A register's name or an offset of the window (R79). -/
def parseOffset (token : List Char) : Option (BitVec 8) :=
  match named regNames token with
  | some r => some r.offset
  | none => (parseNat token).bind fun n => if n < 256 then some (BitVec.ofNat 8 n) else none

/-- Cut a line into tokens: blanks and commas separate, `;` starts a comment (R79). `cur` is the token being read,
reversed. -/
def tokensFrom (cur : List Char) : List Char → List (List Char)
  | [] => if cur.isEmpty then [] else [cur.reverse]
  | c :: rest =>
    if c = ';' then (if cur.isEmpty then [] else [cur.reverse])
    else if c = ' ' ∨ c = ',' ∨ c = '\t' then
      (if cur.isEmpty then tokensFrom [] rest else cur.reverse :: tokensFrom [] rest)
    else tokensFrom (c :: cur) rest

/-- A query line of the given kind from its four numbers. -/
def parseQuery (mk : Word → Word → Word → Word → AsmLine) (x0 y0 x1 y1 : List Char) : Option AsmLine :=
  (parseWord x0).bind fun x0 => (parseWord y0).bind fun y0 => (parseWord x1).bind fun x1 => (parseWord y1).map fun y1 =>
    mk x0 y0 x1 y1

/-- The pseudo-instructions with four numbers (R82). -/
def queryLine : Instr → Option (Word → Word → Word → Word → AsmLine)
  | .nop => none
  | .build => none
  | .qsum => some .qsum
  | .qavg => some .qavg
  | .qnzc => some .qnzc
  | .qnzavg => some .qnzavg

/-- A line of one word: WAIT, CLEAR, IRQON, IRQOFF or a command's mnemonic. -/
def parseOneWord (t : List Char) : Option AsmLine :=
  match named [("WAIT", AsmLine.wait), ("CLEAR", .clear), ("IRQON", .irqon), ("IRQOFF", .irqoff)] t with
  | some l => some l
  | none => (named mnemonics t).map .command

/-- A line from its tokens; none where it is no line of R79 to R83. -/
def parseTokens : List (List Char) → Option AsmLine
  | [] => some .empty
  | [t] => parseOneWord t
  | [t, r] => if t = "RD".toList then (parseOffset r).map .rd else none
  | [t, r, v] =>
    if t = "WR".toList then (parseOffset r).bind fun off => (parseWord v).map fun v => .wr off v else none
  | [t, a, b, c] =>
    if t = "RD".toList ∧ b = "->".toList then
      (parseOffset a).bind fun off => (parseWord c).map fun v => .rdExpect off v
    else if t = "BUILD".toList then
      (parseWord a).bind fun a => (parseWord b).bind fun b => (parseWord c).map fun c => .build a b c
    else none
  | [t, a, b, c, d] => (named mnemonics t).bind fun i => (queryLine i).bind fun mk => parseQuery mk a b c d
  | _ => none

/-- One line of text. -/
def parseLine (text : List Char) : Option AsmLine := parseTokens (tokensFrom [] text)

/-- A program's lines as the host's transactions (R78); none where a line cannot be read. -/
def assemble : List String → Option (List HostOp)
  | [] => some []
  | l :: rest => (parseLine l.toList).bind fun a => (assemble rest).map fun ops => a.expand ++ ops

end Sys2Proof.Machine
end

