-- ==== Sys2Proof/Safety.lean ====
section
/-! DEFINITION. The terms the claims are stated in: what a run's start and end are (R167, R169), what a command leaves
unchanged, the geometry of a rectangle written with min and max, sums over the grid, the value of a binary64 pattern, the
invariant of the machine, and what it means that unspecified state does not matter. Nothing here is called by the
machine. -/

namespace Sys2Proof.Machine

open Sys2Proof

/-! ### Runs -/

/-- `n` engine steps with no other agent moving between them (R87, R91). -/
def engineRun : Nat → State → Host.Outcome State Fault Refusal
  | 0, s => .next s
  | n + 1, s =>
    match engineStep s with
    | .next t => engineRun n t
    | .fault f => .fault f
    | .refused r => .refused r

/-- R169's launch premises: nothing in flight, reset released. -/
def State.launch (s : State) : Prop := s.eng = .idle ∧ s.rst = false

/-- R167: the host has performed its last transaction and STATUS.BUSY = 0. -/
def State.ended (s : State) : Prop := s.host = [] ∧ s.busy = false

/-- The register window as the host can read it, offset 0x00 to 0xFC (R19, R167). -/
def State.window (s : State) : List Word := (List.range 64).map fun k => readOffset s (BitVec.ofNat 8 (4 * k))

/-! ### Frames -/

/-- All of the state but the completion status (ERR, DONE, eng) and the result registers is as before. -/
structure KeepsBesideResults (s t : State) : Prop where
  cfg : t.cfg = s.cfg
  ie : t.ie = s.ie
  valid : t.valid = s.valid
  drop : t.drop = s.drop
  ops : t.ops = s.ops
  builtWidth : t.builtWidth = s.builtWidth
  builtHeight : t.builtHeight = s.builtHeight
  vt : t.vt = s.vt
  nt : t.nt = s.nt
  snap : t.snap = s.snap
  cx : t.cx = s.cx
  cy : t.cy = s.cy
  grid : ∀ a, gridRead t a = gridRead s a
  memory : t.grid = s.grid
  rst : t.rst = s.rst
  host : t.host = s.host
  sched : t.sched = s.sched
  reads : t.reads = s.reads
  epoch : t.epoch = s.epoch

/-- All of the state but the completion status is as before. -/
def KeepsBesideStatus (s t : State) : Prop := KeepsBesideResults s t ∧ t.res = s.res

/-- What a step of BUILD never changes (R108): everything but STATUS, the built dimensions, the tables, the cursor and the
free-value counter. -/
structure KeepsBesideBuild (s t : State) : Prop where
  cfg : t.cfg = s.cfg
  ie : t.ie = s.ie
  drop : t.drop = s.drop
  ops : t.ops = s.ops
  res : t.res = s.res
  snap : t.snap = s.snap
  grid : ∀ a, gridRead t a = gridRead s a
  memory : t.grid = s.grid
  rst : t.rst = s.rst
  host : t.host = s.host
  sched : t.sched = s.sched
  reads : t.reads = s.reads

/-- The command has completed with a code (R86). -/
def CompletedWith (code : Completion) (t : State) : Prop := t.err = code ∧ t.done = true ∧ t.eng = .idle

/-- What the completion of a command with a code shows the host and the interrupt line (R86): the code, DONE = 1 and
BUSY = 0 in STATUS, and IRQ as CTRL.IE stood when the step was taken. -/
def ShowsCompletion (code : Completion) (s t : State) : Prop :=
  CompletedWith code t ∧ (statusWord t).extractLsb' 4 4 = code.code ∧ (statusWord t).getLsbD 2 = true ∧
    (statusWord t).getLsbD 0 = false ∧ t.irq = s.ie

/-- The next step is the engine's: its turn is listed, or none is and it can step (log entry 1). -/
def State.engineMoves (s : State) : Prop :=
  (∃ rest, s.sched = .engine :: rest) ∨ (s.sched = [] ∧ s.engineReady = true)

/-- The four query commands. -/
def isQuery (i : Instr) : Prop := i = .qsum ∨ i = .qavg ∨ i = .qnzc ∨ i = .qnzavg

/-- The codes a command can complete with (R136). -/
def allowedCodes : Instr → List Completion
  | .nop => [.ok]
  | .build => [.ok, .nullBuffer, .invalidSize, .sizeLimit]
  | .qsum => [.ok, .noTable]
  | .qavg => [.ok, .noTable]
  | .qnzc => [.ok, .noTable]
  | .qnzavg => [.ok, .noTable]

/-- BUILD's checks all pass (R96 to R98). -/
def State.buildPasses (s : State) : Prop :=
  s.snap.ops.gridBase ≠ 0 ∧ 0 < s.snap.ops.width.toInt ∧ 0 < s.snap.ops.height.toInt ∧
    s.snap.ops.width.toInt ≤ s.cfg.maxDim ∧ s.snap.ops.height.toInt ≤ s.cfg.maxDim

/-! ### The geometry of a query, one axis at a time -/

/-- The coordinates c0 and c1, in either order, span no index of 0 .. n - 1 (R112, R113). -/
def spanOut (c0 c1 : Word) (n : Nat) : Prop := max c0.toInt c1.toInt < 0 ∨ (n : Int) ≤ min c0.toInt c1.toInt

/-- The lower clamped index (R112, R114). -/
def spanLow (c0 c1 : Word) : Int := max 0 (min c0.toInt c1.toInt)

/-- The upper clamped index (R112, R114). -/
def spanHigh (c0 c1 : Word) (n : Nat) : Int := min (max c0.toInt c1.toInt + 1) n

/-- The span leaves 0 .. n - 1 on some side (R120). -/
def spanClipped (c0 c1 : Word) (n : Nat) : Prop := min c0.toInt c1.toInt < 0 ∨ (n : Int) ≤ max c0.toInt c1.toInt

/-- The query in the snapshot is fully out of range (R113). -/
def State.rectOut (s : State) : Prop :=
  spanOut s.snap.ops.qx0 s.snap.ops.qx1 s.builtWidth.toNat ∨ spanOut s.snap.ops.qy0 s.snap.ops.qy1 s.builtHeight.toNat

/-- lowX of the query in the snapshot, as a table index. -/
def State.loX (s : State) : Nat := (spanLow s.snap.ops.qx0 s.snap.ops.qx1).toNat

/-- highX. -/
def State.hiX (s : State) : Nat := (spanHigh s.snap.ops.qx0 s.snap.ops.qx1 s.builtWidth.toNat).toNat

/-- lowY. -/
def State.loY (s : State) : Nat := (spanLow s.snap.ops.qy0 s.snap.ops.qy1).toNat

/-- highY. -/
def State.hiY (s : State) : Nat := (spanHigh s.snap.ops.qy0 s.snap.ops.qy1 s.builtHeight.toNat).toNat

/-- The clamped footprint (R115). -/
def State.footprint (s : State) : Nat := (s.hiX - s.loX) * (s.hiY - s.loY)

/-- The query leaves the grid on some side (R120). -/
def State.rectClipped (s : State) : Prop :=
  spanClipped s.snap.ops.qx0 s.snap.ops.qx1 s.builtWidth.toNat ∨
    spanClipped s.snap.ops.qy0 s.snap.ops.qy1 s.builtHeight.toNat

/-- The built dimensions are those a build can leave (R41, R5). -/
def State.dimsLegal (s : State) : Prop :=
  1 ≤ s.builtWidth.toNat ∧ s.builtWidth.toNat ≤ 4104 ∧ 1 ≤ s.builtHeight.toNat ∧ s.builtHeight.toNat ≤ 4104

/-- The average registers as one pattern (R38). -/
def Results.average (r : Results) : BitVec 64 := r.avgHi ++ r.avgLo

/-- The registers every in-range query writes the same way (R121). -/
structure CommonResults (s : State) (r : Results) : Prop where
  count : r.count = BitVec.ofNat 32 s.footprint
  lowX : r.lowX.toNat = s.loX
  highX : r.highX.toNat = s.hiX
  lowY : r.lowY.toNat = s.loY
  highY : r.highY.toNat = s.hiY
  oor : r.oor = false
  clipped : r.clipped = true ↔ s.rectClipped

/-- How a query ends (R111, R119, R121), `own` saying what its kind writes when it is in range. -/
def QueryEnds (s t : State) (own : Results → Prop) : Prop :=
  KeepsBesideResults s t ∧
    (s.valid = false → CompletedWith .noTable t ∧ t.res = Results.zero) ∧
    (s.valid = true → s.rectOut → CompletedWith .ok t ∧ t.res = { Results.zero with oor := true }) ∧
    (s.valid = true → ¬s.rectOut → CompletedWith .ok t ∧ CommonResults s t.res ∧ own t.res)

/-- The four-term lookup at the query's clamped indices (R116), modulo 2^32. -/
def State.fourTerms (s : State) (cell : Nat → Nat → Word) : Word :=
  cell s.hiX s.hiY + cell s.loX s.loY - cell s.loX s.hiY - cell s.hiX s.loY

/-! ### Sums over the grid -/

/-- A grid: the byte of column x and row y. -/
abbrev Grid := Nat → Nat → Byte

/-- The grid a BUILD with the state's snapshot reads from the grid memory as it stands (R15). -/
def State.gridOf (s : State) : Grid := fun x y => gridRead s (gridAddr s.snap.ops.gridBase s.runWidth x y)

/-- The sum of f over columns x0 .. x1 - 1 and rows y0 .. y1 - 1. -/
def rectSum (f : Nat → Nat → Nat) (x0 x1 y0 y1 : Nat) : Nat :=
  ∑ i ∈ Finset.Ico x0 x1, ∑ j ∈ Finset.Ico y0 y1, f i j

/-- The values of a grid. -/
def valueOf (g : Grid) : Nat → Nat → Nat := fun x y => (g x y).toNat

/-- 1 for each non-zero cell of a grid, else 0. -/
def nonZeroOf (g : Grid) : Nat → Nat → Nat := fun x y => if g x y = 0 then 0 else 1

/-- The table cell (x, y) is listed and holds the prefix sum of f over columns below x and rows below y (R106). -/
def HoldsPrefix (t : Table) (f : Nat → Nat → Nat) (x y : Nat) : Prop :=
  ∃ v, t.read x y = some v ∧ v.toNat = rectSum f 0 x 0 y

/-- Both tables hold the prefix sums of a grid up to (w, h) (R43, R44). -/
def TablesOf (s : State) (g : Grid) (w h : Nat) : Prop :=
  ∀ x ≤ w, ∀ y ≤ h, HoldsPrefix s.vt (valueOf g) x y ∧ HoldsPrefix s.nt (nonZeroOf g) x y

/-- Grid cell (x, y) comes before (cx, cy) in the traversal (R49, R103). -/
def Visited (cx cy x y : Nat) : Prop := y < cy ∨ (y = cy ∧ x < cx)

/-- Table cell (x, y) of a `w` by `h` build is on the zero border or belongs to a visited grid cell. -/
def CellWritten (w h cx cy x y : Nat) : Prop :=
  x ≤ w ∧ y ≤ h ∧ (x = 0 ∨ y = 0 ∨ Visited cx cy (x - 1) (y - 1))

/-- The tables of a BUILD in progress: "every cell before it in row-major order is final, no cell after it has been
written" (R49). -/
def PartialTables (s : State) (g : Grid) : Prop :=
  ∀ x y,
    (CellWritten s.runWidth s.runHeight s.cx s.cy x y →
      HoldsPrefix s.vt (valueOf g) x y ∧ HoldsPrefix s.nt (nonZeroOf g) x y) ∧
    (¬CellWritten s.runWidth s.runHeight s.cx s.cy x y → s.vt.read x y = none ∧ s.nt.read x y = none)

/-- The cursor of a BUILD in progress (R49), or just past the last cell (log entry 6). -/
def CursorInRange (s : State) : Prop :=
  (s.cx < s.runWidth ∧ s.cy < s.runHeight) ∨ (s.cx = 0 ∧ s.cy = s.runHeight)

/-! ### binary64 -/

/-- The exponent field (93_implementation_defined.md G1). -/
def b64Exp (b : BitVec 64) : Nat := (b.extractLsb' 52 11).toNat

/-- The fraction field. -/
def b64Frac (b : BitVec 64) : Nat := (b.extractLsb' 0 52).toNat

/-- Neither NaN nor an infinity. -/
def b64Finite (b : BitVec 64) : Prop := b64Exp b ≠ 2047

/-- A normal number of positive sign. -/
def b64PosNormal (b : BitVec 64) : Prop := b.getLsbD 63 = false ∧ 1 ≤ b64Exp b ∧ b64Exp b ≤ 2046

/-- The value of a finite pattern. -/
def b64Value (b : BitVec 64) : ℚ :=
  (if b.getLsbD 63 then -1 else 1) *
    (if b64Exp b = 0 then (b64Frac b : ℚ) * (2 : ℚ) ^ (-1074 : Int)
     else ((2 : ℚ) ^ 52 + b64Frac b) * (2 : ℚ) ^ ((b64Exp b : Int) - 1075))

/-! ### The invariant -/

/-- The register window is at its reset values and the engine idle (R151, R152). -/
structure AtReset (s : State) : Prop where
  ie : s.ie = false
  eng : s.eng = .idle
  valid : s.valid = false
  done : s.done = false
  drop : s.drop = false
  err : s.err = .ok
  ops : s.ops = Operands.zero
  res : s.res = Results.zero
  builtWidth : s.builtWidth = 0
  builtHeight : s.builtHeight = 0

/-- What holds of a BUILD in progress (R49, R99, R100 to R103). -/
structure BuildInv (s : State) : Prop where
  valid : s.valid = false
  op : s.snap.op = .legal .build
  passes : s.buildPasses
  cursor : CursorInRange s
  tables : ∃ g, PartialTables s g

/-- What holds of a built table pair (R41, R43, R44). -/
structure BuiltInv (s : State) : Prop where
  dims : s.dimsLegal
  width : s.builtWidth.toNat ≤ s.cfg.maxDim
  height : s.builtHeight.toNat ≤ s.cfg.maxDim
  tables : ∃ g, TablesOf s g s.builtWidth.toNat s.builtHeight.toNat

/-- Every listed cell lies in the storage (R107). -/
def InStorage (t : Table) (m : Nat) : Prop := ∀ x y v, t.read x y = some v → x ≤ m ∧ y ≤ m

/-- The canonical forms of everything that is held as a list. -/
structure CanonicalForms (s : State) : Prop where
  grid : s.grid.wf = true
  vt : s.vt.wf = true
  nt : s.nt.wf = true

/-- The invariant every step keeps. -/
structure State.Inv (s : State) : Prop where
  config : s.cfg.legal = true
  forms : CanonicalForms s
  vtStorage : InStorage s.vt s.cfg.maxDim
  ntStorage : InStorage s.nt s.cfg.maxDim
  flags : (s.res.oor && s.res.clipped) = false
  busy : s.eng ≠ .idle → s.done = false
  op : s.eng ≠ .idle → s.snap.op = decode s.snap.cmdword
  reset : s.rst = true → AtReset s
  building : s.eng = .building → BuildInv s
  built : s.valid = true → BuiltInv s

/-! ### Unspecified state -/

/-- Two states that differ at most in what the spec leaves at "any value" (93 items 1 to 3): the snapshot while IDLE, the
cursor while not BUILDING, the cells no build has written, and the model's counter of free values. -/
structure SameSpecified (s t : State) : Prop where
  cfg : t.cfg = s.cfg
  ie : t.ie = s.ie
  eng : t.eng = s.eng
  valid : t.valid = s.valid
  done : t.done = s.done
  drop : t.drop = s.drop
  err : t.err = s.err
  ops : t.ops = s.ops
  res : t.res = s.res
  builtWidth : t.builtWidth = s.builtWidth
  builtHeight : t.builtHeight = s.builtHeight
  grid : t.grid = s.grid
  rst : t.rst = s.rst
  host : t.host = s.host
  sched : t.sched = s.sched
  reads : t.reads = s.reads
  snap : s.eng ≠ .idle → t.snap = s.snap
  cursor : s.eng = .building → t.cx = s.cx ∧ t.cy = s.cy
  cells : s.eng = .building → ∀ x y, CellWritten s.runWidth s.runHeight s.cx s.cy x y →
    vtCell t x y = vtCell s x y ∧ ntCell t x y = ntCell s x y
  tables : s.valid = true → ∀ x ≤ s.builtWidth.toNat, ∀ y ≤ s.builtHeight.toNat,
    vtCell t x y = vtCell s x y ∧ ntCell t x y = ntCell s x y

/-- Two outcomes of one kind, with related next states or the same reason. -/
def SameOutcome (R : State → State → Prop) :
    Host.Outcome State Fault Refusal → Host.Outcome State Fault Refusal → Prop
  | .next s, .next t => R s t
  | .fault f, .fault g => f = g
  | .refused q, .refused r => q = r
  | _, _ => False

/-- An outcome with its next state changed. -/
def mapNext (f : State → State) : Host.Outcome State Fault Refusal → Host.Outcome State Fault Refusal
  | .next s => .next (f s)
  | .fault r => .fault r
  | .refused r => .refused r

end Sys2Proof.Machine
end

