-- ==== Sys2Proof/Certificates/Slice0/Obligations.lean ====
section
/-! DEFINITION. The statements for the provers. Each docstring names the rule of spec/ it formalises; where a clause is
the model's choice it names the log entry. -/

open Sys2Proof Sys2Proof.Machine

/-! ## Encoding -/

/-- From R73, R74, R75: words written out from the opcode map, and some of the reserved ones (95_test_vectors.md C-2 to
C-4). -/
def Obligations.SpecWordsDecode : Prop :=
  decode 0x00000000 = .legal .nop ∧ decode 0x00000001 = .legal .build ∧ decode 0x00000002 = .legal .qsum ∧
    decode 0x00000003 = .legal .qavg ∧ decode 0x00000004 = .legal .qnzc ∧ decode 0x00000005 = .legal .qnzavg ∧
    decode 0x00000006 = .illegal .reservedOpcode ∧ decode 0x0000000F = .illegal .reservedOpcode ∧
    decode 0x00000011 = .illegal .reservedBits ∧ decode 0xFFFFFFFF = .illegal .reservedBits

/-- From R70, R73 and the spec's own inference R76: every 32-bit word is exactly one of the six commands, each selected
by its own word alone, or illegal. -/
def Obligations.DecodeAndEncodeAgree : Prop :=
  (∀ (w : Word) (i : Instr), decode w = .legal i ↔ w = encode i) ∧
    ∀ w : Word, (∃ why, decode w = .illegal why) ↔ 6 ≤ w.toNat

/-- R74, R75, R89: a word with any of bits 31:4 set, or with OP in 0x6 to 0xF, once accepted, completes with
ILLEGAL_CMD, ERR = 5 in STATUS, in one engine step and has no other effect. -/
def Obligations.IllegalWordCompletesWithNoOtherEffect : Prop :=
  ∀ (s : State) (w : Word), (w.toNat / 16 ≠ 0 ∨ 6 ≤ w.toNat % 16) →
    ∃ t, engineStep (accept w s) = .next t ∧ CompletedWith .illegalCmd t ∧ (statusWord t).extractLsb' 4 4 = 5 ∧
      KeepsBesideStatus (accept w s) t

/-! ## The life of a command -/

/-- From R87 and R47: the engine's turn in EXEC runs the command decoded from the accepted word. What step adds around
exec is stated: a listed turn is taken off the list; with no turn listed the busy engine moves (log entry 1); and
withFetchWord's state is the accepted one with the engine's turn first (log entry 2). -/
def Obligations.StepRunsTheDecodedCommand : Prop :=
  (∀ (s : State) (w : Word) (i : Instr) (rest : List Turn),
      i.wellFormed = true → decode w = .legal i → s.snap.op = decode w → s.eng = .exec → s.rst = false →
      s.cfg.legal = true →
      (s.sched = .engine :: rest → step s = exec i { s with sched := rest }) ∧ (s.sched = [] → step s = exec i s)) ∧
    ∀ (s : State) (w : Word) (i : Instr),
      i.wellFormed = true → decode w = .legal i → s.cfg.legal = true →
      step (s.withFetchWord 32 w.toNat) = exec i { accept w s with rst := false }

/-- R84: a host write to CMD while the engine is idle is accepted in the same step: the snapshot holds the decoded
word, the word and the operand registers; DONE is 0, BUSY is 1; ERR, VALID, DROP, the result registers and the tables
are not changed by acceptance; nor are CTRL, the operand registers, the built dimensions and the grid memory. -/
def Obligations.CommandAccepted : Prop :=
  ∀ (s : State) (w : Word) (rest : List HostOp) (turns : List Turn),
    s.cfg.legal = true → s.rst = false → s.eng = .idle → s.host = .wr { width := 32, off := 0x10 } w :: rest →
    s.sched = .host :: turns →
    ∃ t, step s = .next t ∧ t.snap.op = decode w ∧ t.snap.cmdword = w ∧ t.snap.ops = s.ops ∧ t.done = false ∧
      t.eng = .exec ∧ (statusWord t).getLsbD 0 = true ∧ t.err = s.err ∧ t.valid = s.valid ∧ t.drop = s.drop ∧
      t.res = s.res ∧ t.vt = s.vt ∧ t.nt = s.nt ∧ t.ie = s.ie ∧ t.ops = s.ops ∧ t.builtWidth = s.builtWidth ∧
      t.builtHeight = s.builtHeight ∧ (∀ a, gridRead t a = gridRead s a) ∧ t.host = rest ∧ t.sched = turns

/-- R85: a host write to CMD while BUSY = 1 sets DROP and changes nothing else; and DROP has no influence on the
running command, so the dropped word never runs. -/
def Obligations.CommandWhileBusyIsDropped : Prop :=
  (∀ (s : State) (w : Word) (rest : List HostOp) (turns : List Turn),
      s.cfg.legal = true → s.rst = false → s.eng ≠ .idle → s.host = .wr { width := 32, off := 0x10 } w :: rest →
      s.sched = .host :: turns →
      step s = .next { s with drop := true, host := rest, sched := turns }) ∧
    ∀ s : State, engineStep { s with drop := true } = mapNext (fun t => { t with drop := true }) (engineStep s)

/-- From R86: a completing step sets ERR to the command's code, sets DONE and clears BUSY, all as STATUS shows them, and
IRQ is then CTRL.IE. Completing are a step of exec that leaves the engine idle, with one of the command's codes; the
illegal command's step; and the step that takes a running BUILD to idle. -/
def Obligations.CompletionSetsStatusAtOnce : Prop :=
  (∀ (i : Instr) (s t : State), exec i s = .next t → t.eng = .idle → ∃ code ∈ allowedCodes i, ShowsCompletion code s t) ∧
    (∀ (why : Illegal) (s t : State), s.eng = .exec → s.snap.op = .illegal why → engineStep s = .next t →
      ShowsCompletion .illegalCmd s t) ∧
    ∀ s t : State, s.eng = .building → engineStep s = .next t → t.eng = .idle → ShowsCompletion .ok s t

/-- Which command can complete with which code: "No other pairing occurs", an inference the spec marks as its own in
R136 (60_exceptions.md section 1). -/
def Obligations.CompletionCodePairing : Prop :=
  (∀ (i : Instr) (s t : State), s.eng = .exec → s.snap.op = .legal i → engineStep s = .next t →
      (t.eng = .idle ∧ t.err ∈ allowedCodes i) ∨ (i = .build ∧ t.eng = .building)) ∧
    (∀ (why : Illegal) (s t : State), s.eng = .exec → s.snap.op = .illegal why → engineStep s = .next t →
      t.eng = .idle ∧ t.err = .illegalCmd) ∧
    ∀ s t : State, s.eng = .building → engineStep s = .next t → (t.eng = .idle ∧ t.err = .ok) ∨ t.eng = .building

/-- R88: NOP completes with OK from every state; VALID, DROP, CTRL, the operand registers, the result registers, the
built dimensions and the tables are unchanged; the status words of its example. -/
def Obligations.NopCompletes : Prop :=
  encode .nop = 0x00000000 ∧ ∀ s : State, ∃ t, exec .nop s = .next t ∧ CompletedWith .ok t ∧ KeepsBesideStatus s t ∧
    (s.drop = false → statusWord t = if s.valid then 0x00000006 else 0x00000004)

/-! ## BUILD -/

/-- R96, R97, R98, R99: the checks in their order, the first that applies giving the code, 1, 2 or 3; a BUILD that
fails writes nothing but the completion status and reads no grid byte. -/
def Obligations.BuildChecksInOrder : Prop :=
  ∀ s : State, ¬s.buildPasses →
    ∃ t, exec .build s = .next t ∧ KeepsBesideStatus s t ∧
      CompletedWith
        (if s.snap.ops.gridBase = 0 then .nullBuffer
          else if s.snap.ops.width.toInt ≤ 0 ∨ s.snap.ops.height.toInt ≤ 0 then .invalidSize else .sizeLimit) t ∧
      (statusWord t).extractLsb' 4 4 =
        (if s.snap.ops.gridBase = 0 then 1
          else if s.snap.ops.width.toInt ≤ 0 ∨ s.snap.ops.height.toInt ≤ 0 then 2 else 3) ∧
      ∀ m : Memory, exec .build { s with grid := m } = .next { t with grid := m }

/-- R100: when the checks pass the same step clears VALID, writes the zero borders of both tables, sets the cursor to
(0, 0) and enters BUILDING; the previous table pair is lost, which the model holds by listing no other cell (log entry
4). This is BUILD's completion statement: its EXEC step always has this effect when the checks pass. -/
def Obligations.BuildStarts : Prop :=
  ∀ s : State, s.buildPasses →
    ∃ t, exec .build s = .next t ∧ t.valid = false ∧ t.eng = .building ∧ t.cx = 0 ∧ t.cy = 0 ∧
      t.builtWidth = s.builtWidth ∧ t.builtHeight = s.builtHeight ∧ t.done = s.done ∧ t.err = s.err ∧
      KeepsBesideBuild s t ∧
      ∀ x y, (t.vt.read x y, t.nt.read x y) =
        if (y = 0 ∧ (x : Int) ≤ s.snap.ops.width.toInt) ∨ (x = 0 ∧ (y : Int) ≤ s.snap.ops.height.toInt)
        then (some 0, some 0) else (none, none)

/-- R101, R102, R103: one cell step reads the grid byte at (base + cy*W + cx) mod 2^32, writes cell (cx+1, cy+1) of
each table by the recurrence and no other cell, and moves the cursor left to right, then down. The byte is the one the
grid memory holds at this step. -/
def Obligations.BuildCellStep : Prop :=
  ∀ s : State, s.eng = .building → s.cx < s.runWidth → s.cy < s.runHeight →
    ∃ t v, engineStep s = .next t ∧
      v = gridRead s (BitVec.ofNat 32 ((s.snap.ops.gridBase.toNat + s.cy * s.runWidth + s.cx) % 2 ^ 32)) ∧
      t.vt.read (s.cx + 1) (s.cy + 1) =
        some (v.setWidth 32 + vtCell s s.cx (s.cy + 1) + vtCell s (s.cx + 1) s.cy - vtCell s s.cx s.cy) ∧
      t.nt.read (s.cx + 1) (s.cy + 1) =
        some ((if v = 0 then 0 else 1) + ntCell s s.cx (s.cy + 1) + ntCell s (s.cx + 1) s.cy - ntCell s s.cx s.cy) ∧
      (∀ x y, ¬(x = s.cx + 1 ∧ y = s.cy + 1) → t.vt.read x y = s.vt.read x y ∧ t.nt.read x y = s.nt.read x y) ∧
      (if s.cx + 1 = s.runWidth then t.cx = 0 ∧ t.cy = s.cy + 1 else t.cx = s.cx + 1 ∧ t.cy = s.cy) ∧
      t.eng = .building ∧ t.valid = s.valid ∧ t.builtWidth = s.builtWidth ∧ t.builtHeight = s.builtHeight ∧
      t.done = s.done ∧ t.err = s.err ∧ KeepsBesideBuild s t

/-- From R105: the finish step sets BUILT_WIDTH, BUILT_HEIGHT and VALID and completes with OK; the tables stay. That it
is the step taken once the cursor's row has reached the height is the model's coding (log entry 6). -/
def Obligations.BuildFinishStep : Prop :=
  ∀ s : State, s.eng = .building → s.cy = s.runHeight →
    ∃ t, engineStep s = .next t ∧ t.builtWidth.toNat = s.runWidth ∧ t.builtHeight.toNat = s.runHeight ∧
      t.valid = true ∧ CompletedWith .ok t ∧ t.vt = s.vt ∧ t.nt = s.nt ∧ KeepsBesideBuild s t

/-- From the EXEC step of a BUILD whose checks pass, exactly W*H + 2 engine steps later (R91), and no sooner, the BUILD
has completed with OK, VALID = 1 and the built dimensions W and H, and both tables hold the exact prefix sums of the
grid in the grid memory, border included. The sums are the spec's own inference, "After a successful BUILD of grid `g`
with dimensions `W × H`, for every ..." (R106), and so is their exactness (R104). -/
def Obligations.BuildComputesPrefixSums : Prop :=
  ∀ s : State, s.cfg.legal = true → s.eng = .exec → s.snap.op = .legal .build → s.buildPasses →
    (∃ t, engineRun (s.runWidth * s.runHeight + 2) s = .next t ∧ CompletedWith .ok t ∧ t.valid = true ∧
      t.builtWidth.toNat = s.runWidth ∧ t.builtHeight.toNat = s.runHeight ∧
      TablesOf t s.gridOf s.runWidth s.runHeight ∧ KeepsBesideBuild s t) ∧
    ∀ k, 0 < k → k < s.runWidth * s.runHeight + 2 → ∃ t, engineRun k s = .next t ∧ t.eng = .building ∧ t.valid = false

/-- R108: no step of a BUILD writes a register other than STATUS, BUILT_WIDTH and BUILT_HEIGHT, or a byte of the grid
memory, and none changes DROP. -/
def Obligations.BuildFrame : Prop :=
  ∀ s t : State, (exec .build s = .next t ∨ (s.eng = .building ∧ engineStep s = .next t)) →
    KeepsBesideBuild s t ∧
      ∀ off : BitVec 8, off ∉ ([0x0C, 0x58, 0x5C] : List (BitVec 8)) → readOffset t off = readOffset s off

/-! ## Queries -/

/-- R111: a query with VALID = 0 completes in its one step with NO_TABLE, code 4, and writes every result register 0,
whatever the tables hold. -/
def Obligations.QueryWithoutTable : Prop :=
  ∀ (i : Instr) (s : State), isQuery i → s.valid = false →
    ∃ t, exec i s = .next t ∧ CompletedWith .noTable t ∧ (statusWord t).extractLsb' 4 4 = 4 ∧ KeepsBesideResults s t ∧
      ∀ off ∈ ([0x30, 0x34, 0x38, 0x3C, 0x40, 0x44, 0x48, 0x4C, 0x50, 0x54] : List (BitVec 8)),
        readOffset t off = 0x00000000

/-- R119, with the test of R113: a rectangle that lies wholly to one side of the grid makes every query complete with
OK, every result register 0 but RES_FLAGS = 1. -/
def Obligations.OutOfRangeQuery : Prop :=
  ∀ (i : Instr) (s : State), isQuery i → s.valid = true →
    (max s.snap.ops.qx0.toInt s.snap.ops.qx1.toInt < 0 ∨ max s.snap.ops.qy0.toInt s.snap.ops.qy1.toInt < 0 ∨
      min s.snap.ops.qx0.toInt s.snap.ops.qx1.toInt > s.builtWidth.toNat - 1 ∨
      min s.snap.ops.qy0.toInt s.snap.ops.qy1.toInt > s.builtHeight.toNat - 1) →
    ∃ t, exec i s = .next t ∧ CompletedWith .ok t ∧ KeepsBesideResults s t ∧ readOffset t 0x54 = 0x00000001 ∧
      ∀ off ∈ ([0x30, 0x34, 0x38, 0x3C, 0x40, 0x44, 0x48, 0x4C, 0x50] : List (BitVec 8)),
        readOffset t off = 0x00000000

/-- R114, R115, R120, R121: what every in-range query writes besides its kind's own results, in the rules' own
integers; it completes with OK. That the indices are ordered is InRangeIndicesAreOrdered. -/
def Obligations.InRangeCommonResults : Prop :=
  ∀ (i : Instr) (s : State), isQuery i → s.valid = true → s.dimsLegal → ¬s.rectOut →
    ∃ t, exec i s = .next t ∧ CompletedWith .ok t ∧
      ((readOffset t 0x44).toNat : Int) = max 0 (min s.snap.ops.qx0.toInt s.snap.ops.qx1.toInt) ∧
      ((readOffset t 0x48).toNat : Int) = min (max s.snap.ops.qx0.toInt s.snap.ops.qx1.toInt + 1) s.builtWidth.toNat ∧
      ((readOffset t 0x4C).toNat : Int) = max 0 (min s.snap.ops.qy0.toInt s.snap.ops.qy1.toInt) ∧
      ((readOffset t 0x50).toNat : Int) = min (max s.snap.ops.qy0.toInt s.snap.ops.qy1.toInt + 1) s.builtHeight.toNat ∧
      (readOffset t 0x38).toNat =
        ((readOffset t 0x48).toNat - (readOffset t 0x44).toNat) *
          ((readOffset t 0x50).toNat - (readOffset t 0x4C).toNat) ∧
      1 ≤ (readOffset t 0x38).toNat ∧ (readOffset t 0x38).toNat ≤ s.builtWidth.toNat * s.builtHeight.toNat ∧
      (readOffset t 0x54 = 0x00000002 ∨ readOffset t 0x54 = 0x00000000) ∧
      (readOffset t 0x54 = 0x00000002 ↔
        (min s.snap.ops.qx0.toInt s.snap.ops.qx1.toInt < 0 ∨ min s.snap.ops.qy0.toInt s.snap.ops.qy1.toInt < 0 ∨
          max s.snap.ops.qx0.toInt s.snap.ops.qx1.toInt > s.builtWidth.toNat - 1 ∨
          max s.snap.ops.qy0.toInt s.snap.ops.qy1.toInt > s.builtHeight.toNat - 1))

/-- "When not OOR, `0 ≤ lowX < highX ≤ W` and `0 ≤ lowY < highY ≤ H`", an inference the spec marks as its own in R114:
no in-range query leaves an empty or an overlong index range. -/
def Obligations.InRangeIndicesAreOrdered : Prop :=
  ∀ (i : Instr) (s : State), isQuery i → s.valid = true → s.dimsLegal → ¬s.rectOut → ∃ t, exec i s = .next t ∧
    (readOffset t 0x44).toNat < (readOffset t 0x48).toNat ∧ (readOffset t 0x48).toNat ≤ s.builtWidth.toNat ∧
      (readOffset t 0x4C).toNat < (readOffset t 0x50).toNat ∧ (readOffset t 0x50).toNat ≤ s.builtHeight.toNat

/-- R122: QSUM from every state. -/
def Obligations.QsumResult : Prop :=
  encode .qsum = 0x00000002 ∧ ∀ s : State, ∃ t, exec .qsum s = .next t ∧
    QueryEnds s t fun r => r.sum = s.fourTerms (vtCell s) ∧ r.nzc = 0 ∧ r.average = 0

/-- R123: QNZC from every state. -/
def Obligations.QnzcResult : Prop :=
  encode .qnzc = 0x00000004 ∧ ∀ s : State, ∃ t, exec .qnzc s = .next t ∧
    QueryEnds s t fun r => r.nzc = s.fourTerms (ntCell s) ∧ r.sum = 0 ∧ r.average = 0

/-- R124: QAVG from every state; the denominator is the clamped count. -/
def Obligations.QavgResult : Prop :=
  encode .qavg = 0x00000003 ∧ ∀ s : State, ∃ t, exec .qavg s = .next t ∧
    QueryEnds s t fun r => r.sum = s.fourTerms (vtCell s) ∧ r.nzc = 0 ∧
      r.average = fdiv64 (s.fourTerms (vtCell s)).toNat s.footprint

/-- R125: QNZAVG from every state, the division guarded when the non-zero count is 0. -/
def Obligations.QnzavgResult : Prop :=
  encode .qnzavg = 0x00000005 ∧ ∀ s : State, ∃ t, exec .qnzavg s = .next t ∧
    QueryEnds s t fun r => r.sum = s.fourTerms (vtCell s) ∧ r.nzc = s.fourTerms (ntCell s) ∧
      (s.fourTerms (ntCell s) = 0 → r.average = 0) ∧
      (s.fourTerms (ntCell s) ≠ 0 →
        r.average = fdiv64 (s.fourTerms (vtCell s)).toNat (s.fourTerms (ntCell s)).toNat)

/-- The spec's own inferences "Meaning of the lookup" (R117), "Lookup arithmetic" (R118) and "RES_NZC ≤ RES_COUNT
always" (in R123): over tables that hold the prefix sums of a grid, an in-range query's aggregates are the exact sum
and the exact non-zero count of the grid over the intersection of the rectangle with it. -/
def Obligations.QueriesAnswerRectangleSums : Prop :=
  ∀ (s : State) (g : Grid), s.valid = true → s.dimsLegal → TablesOf s g s.builtWidth.toNat s.builtHeight.toNat →
    ¬s.rectOut →
    (∀ i ∈ [Instr.qsum, .qavg, .qnzavg], ∃ t, exec i s = .next t ∧
      t.res.sum.toNat = rectSum (valueOf g) s.loX s.hiX s.loY s.hiY) ∧
    ∀ i ∈ [Instr.qnzc, .qnzavg], ∃ t, exec i s = .next t ∧
      t.res.nzc.toNat = rectSum (nonZeroOf g) s.loX s.hiX s.loY s.hiY ∧ t.res.nzc.toNat ≤ t.res.count.toNat

/-- The spec's own inference "Single cell and full grid" (R129): a query of the single cell (x, y) gives the cell, QAVG
gives its binary64 value (the format: log entry 10); over the full grid QSUM gives the total and QNZC the non-zero
count, and QNZAVG the non-zero mean, which is +0.0 by R125's guard when every cell is 0. -/
def Obligations.SingleCellAndFullGrid : Prop :=
  ∀ (s : State) (g : Grid), s.valid = true → s.dimsLegal → TablesOf s g s.builtWidth.toNat s.builtHeight.toNat →
    (∀ x y : Nat, x < s.builtWidth.toNat → y < s.builtHeight.toNat →
      s.snap.ops.qx0 = BitVec.ofNat 32 x → s.snap.ops.qx1 = BitVec.ofNat 32 x →
      s.snap.ops.qy0 = BitVec.ofNat 32 y → s.snap.ops.qy1 = BitVec.ofNat 32 y →
      (∃ t, exec .qsum s = .next t ∧ t.res.sum.toNat = (g x y).toNat) ∧
        ∃ t, exec .qavg s = .next t ∧ t.res.sum.toNat = (g x y).toNat ∧ b64Value t.res.average = (g x y).toNat) ∧
    (s.snap.ops.qx0 = 0 → s.snap.ops.qy0 = 0 → s.snap.ops.qx1 = s.builtWidth - 1 →
      s.snap.ops.qy1 = s.builtHeight - 1 →
      (∃ t, exec .qsum s = .next t ∧
        t.res.sum.toNat = rectSum (valueOf g) 0 s.builtWidth.toNat 0 s.builtHeight.toNat) ∧
      (∃ t, exec .qnzc s = .next t ∧
        t.res.nzc.toNat = rectSum (nonZeroOf g) 0 s.builtWidth.toNat 0 s.builtHeight.toNat) ∧
      ∃ t, exec .qnzavg s = .next t ∧
        (rectSum (nonZeroOf g) 0 s.builtWidth.toNat 0 s.builtHeight.toNat = 0 → t.res.average = 0x0000000000000000) ∧
        (rectSum (nonZeroOf g) 0 s.builtWidth.toNat 0 s.builtHeight.toNat ≠ 0 →
          t.res.average = fdiv64 (rectSum (valueOf g) 0 s.builtWidth.toNat 0 s.builtHeight.toNat)
            (rectSum (nonZeroOf g) 0 s.builtWidth.toNat 0 s.builtHeight.toNat)))

/-- The spec's own inference "Order independence" (R128): swapping QX0 with QX1, or QY0 with QY1, before a query gives
the same results in every result register. -/
def Obligations.QueryOrderIndependence : Prop :=
  ∀ (i : Instr) (s : State), isQuery i →
    ∀ o ∈ [{ s.snap.ops with qx0 := s.snap.ops.qx1, qx1 := s.snap.ops.qx0 },
        { s.snap.ops with qy0 := s.snap.ops.qy1, qy1 := s.snap.ops.qy0 }],
      ∃ t u, exec i s = .next t ∧ exec i { s with snap := { s.snap with ops := o } } = .next u ∧ u.res = t.res ∧
        u.err = t.err

/-- R131, R132: a query's results depend only on VALID, the table cells up to the built dimensions, those dimensions
and the four coordinates of its own snapshot; and it writes neither the tables nor VALID nor the built dimensions nor a
byte of the grid memory. -/
def Obligations.QueriesArePure : Prop :=
  ∀ (i : Instr) (s u : State), isQuery i → u.valid = s.valid → u.builtWidth = s.builtWidth →
    u.builtHeight = s.builtHeight → u.snap.ops.qx0 = s.snap.ops.qx0 → u.snap.ops.qy0 = s.snap.ops.qy0 →
    u.snap.ops.qx1 = s.snap.ops.qx1 → u.snap.ops.qy1 = s.snap.ops.qy1 →
    (∀ x ≤ s.builtWidth.toNat, ∀ y ≤ s.builtHeight.toNat, vtCell u x y = vtCell s x y ∧ ntCell u x y = ntCell s x y) →
    ∃ t v, exec i s = .next t ∧ exec i u = .next v ∧ v.res = t.res ∧ v.err = t.err ∧ KeepsBesideResults s t ∧
      KeepsBesideResults u v

/-- R133: a query completes with OK whenever VALID = 1, whatever the four coordinates, and its only other code is
NO_TABLE. -/
def Obligations.QueriesNeverFail : Prop :=
  ∀ (i : Instr) (s : State), isQuery i →
    ∃ t, exec i s = .next t ∧ CompletedWith (if s.valid then .ok else .noTable) t

/-! ## The average's number format -/

/-- R126, on the binary64 layout and values that the spec takes from general knowledge (log entry 10): fdiv64 is the
finite binary64 value nearest to the real quotient, ties to even; +0.0 when s = 0 and otherwise a positive normal
number, at most 255 for a quotient of at most 255. -/
def Obligations.FdivNearestTiesToEven : Prop :=
  ∀ s d : Nat, s < 2 ^ 32 → 1 ≤ d → d < 2 ^ 32 →
    b64Finite (fdiv64 s d) ∧
    (∀ b : BitVec 64, b64Finite b →
      |(s : ℚ) / d - b64Value (fdiv64 s d)| ≤ |(s : ℚ) / d - b64Value b| ∧
      (|(s : ℚ) / d - b64Value (fdiv64 s d)| = |(s : ℚ) / d - b64Value b| → b64Value b ≠ b64Value (fdiv64 s d) →
        (fdiv64 s d).getLsbD 0 = false)) ∧
    (s = 0 → fdiv64 s d = 0x0000000000000000) ∧ (s ≠ 0 → b64PosNormal (fdiv64 s d)) ∧
    (s ≤ 255 * d → b64Value (fdiv64 s d) ≤ 255)

/-- The spec's own inference "No average result is ever NaN, an infinity, a negative zero or subnormal" (R127): no
query leaves in the average registers a NaN, an infinity, a negative zero or a subnormal: the pattern is that of +0.0
or of a positive normal number, in the format of log entry 10. In states that no run reaches (VALID = 1 with a built
dimension that no build leaves) the clamped count can be 0, and there the statement rests on the model's choice of +0.0
for a divisor of 0 (log entry 11). -/
def Obligations.AverageIsNeverSpecial : Prop :=
  ∀ (i : Instr) (s t : State), isQuery i → exec i s = .next t →
    t.res.average = 0x0000000000000000 ∨ b64PosNormal t.res.average

/-! ## The register window -/

/-- From R19: the word each of the 24 offsets reads, in the order of its table: ID, PARAM, CTRL, STATUS, CMD (which
reads 0), the seven operand registers, the ten result registers and the two built dimensions. -/
def Obligations.EachOffsetReadsItsRegister : Prop :=
  ∀ s : State,
    ([0x00, 0x04, 0x08, 0x0C, 0x10] : List (BitVec 8)).map (readOffset s) =
      [0x50534131, paramWord s.cfg, ctrlWord s, statusWord s, 0x00000000] ∧
    ([0x14, 0x18, 0x1C, 0x20, 0x24, 0x28, 0x2C] : List (BitVec 8)).map (readOffset s) =
      [s.ops.width, s.ops.height, s.ops.gridBase, s.ops.qx0, s.ops.qy0, s.ops.qx1, s.ops.qy1] ∧
    ([0x30, 0x34, 0x38, 0x3C, 0x40, 0x44, 0x48, 0x4C, 0x50, 0x54] : List (BitVec 8)).map (readOffset s) =
      [s.res.sum, s.res.nzc, s.res.count, s.res.avgLo, s.res.avgHi, s.res.lowX, s.res.highX, s.res.lowY, s.res.highY,
        resFlagsWord s.res] ∧
    ([0x58, 0x5C] : List (BitVec 8)).map (readOffset s) = [s.builtWidth, s.builtHeight]

/-- From R20, R31 to R34: a write at the offset of an operand register is read back there, no other offset reads
otherwise, and nothing but the operand registers changes. -/
def Obligations.OperandRegistersReadBack : Prop :=
  ∀ (s : State) (v : Word), ∀ off ∈ ([0x14, 0x18, 0x1C, 0x20, 0x24, 0x28, 0x2C] : List (BitVec 8)),
    readOffset (writeOffset off v s) off = v ∧
    (∀ q : BitVec 8, q ≠ off → readOffset (writeOffset off v s) q = readOffset s q) ∧
    writeOffset off v s = { s with ops := (writeOffset off v s).ops }

/-- R42: a write at an offset that holds an RO register, or at a reserved offset, has no effect; a reserved offset and
CMD read 0. -/
def Obligations.ReadOnlyAndReservedIgnoreWrites : Prop :=
  ∀ (off : BitVec 8) (s : State) (v : Word),
    (off ∉ ([0x08, 0x0C, 0x10, 0x14, 0x18, 0x1C, 0x20, 0x24, 0x28, 0x2C] : List (BitVec 8)) → writeOffset off v s = s) ∧
    (off.toNat % 4 = 0 → 0x60 ≤ off.toNat → readOffset s off = 0x00000000) ∧ readOffset s 0x10 = 0x00000000

/-- R29: STATUS as a word, bit by bit, and the effect of a host write to it: DONE and DROP cleared where a 1 is
written, every other bit as before, no other offset reads otherwise, and nothing else of the state changes: not the
snapshot, the cursor, the tables or the grid memory. -/
def Obligations.StatusWordAndWriteOneToClear : Prop :=
  ∀ (s : State) (v : Word),
    (∀ k : Nat, (statusWord s).getLsbD k =
      if k = 0 then s.busy else if k = 1 then s.valid else if k = 2 then s.done else if k = 3 then s.drop
      else if k < 8 then s.err.code.getLsbD (k - 4) else false) ∧
    statusWord (writeOffset 0x0C v s) = statusWord s &&& ~~~(v &&& 0x0000000C) ∧
    (∀ q : BitVec 8, q ≠ 0x0C → readOffset (writeOffset 0x0C v s) q = readOffset s q) ∧
    writeOffset 0x0C v s = { s with done := s.done && !v.getLsbD 2, drop := s.drop && !v.getLsbD 3 }

/-- R23: CTRL keeps bit 0 of the word written, reads its other bits as 0 and is 0 at reset; IRQ is IE AND DONE at once
after it, so it follows DONE while IE is 1. -/
def Obligations.CtrlAndIrq : Prop :=
  ∀ (s : State) (v : Word),
    readOffset (writeOffset 0x08 v s) 0x08 = v &&& 0x00000001 ∧ readOffset State.reset 0x08 = 0x00000000 ∧
    (writeOffset 0x08 v s).irq = (v.getLsbD 0 && s.done) ∧
    (writeOffset 0x0C 0x0000000C s).irq = false ∧ (s.irq = true ↔ s.ie = true ∧ s.done = true) ∧
    (∀ q : BitVec 8, q ≠ 0x08 → readOffset (writeOffset 0x08 v s) q = readOffset s q) ∧
    writeOffset 0x08 v s = { s with ie := v.getLsbD 0 }

/-- R54: an access of another width or at a misaligned offset is refused; a supported one is carried out, a read
returning the register's word and changing nothing but what the host has received. -/
def Obligations.OnlyAlignedWordAccesses : Prop :=
  ∀ (s : State) (a : Access) (v : Word),
    ((a.width ≠ 32 ∨ a.off.toNat % 4 ≠ 0) →
      hostRead a s = .refused (.unsupportedAccess a) ∧ hostWrite a v s = .refused (.unsupportedAccess a)) ∧
    (a.width = 32 → a.off.toNat % 4 = 0 →
      hostRead a s = .next { s with reads := readOffset s a.off :: s.reads } ∧
      (s.rst = false → hostWrite a v s = .next (writeOffset a.off v s)))

/-- From R90 and R92: while BUSY = 1 a host write to an operand register or to CTRL takes effect at once and the
running command goes on exactly as without it. -/
def Obligations.HostWritesDoNotDisturbTheEngine : Prop :=
  ∀ (s : State) (v : Word), s.eng ≠ .idle →
    ∀ off ∈ ([0x14, 0x18, 0x1C, 0x20, 0x24, 0x28, 0x2C, 0x08] : List (BitVec 8)),
      engineStep (writeOffset off v s) = mapNext (writeOffset off v) (engineStep s)

/-- R21, R22: ID is a constant and PARAM the configuration's three fields; no step changes either. -/
def Obligations.IdAndParamNeverChange : Prop :=
  ∀ s t : State, step s = .next t →
    readOffset s 0x00 = 0x50534131 ∧ readOffset t 0x00 = 0x50534131 ∧ readOffset t 0x04 = readOffset s 0x04 ∧
      (s.cfg.maxDim = 4096 → readOffset t 0x04 = 0x08201000) ∧
      (readOffset s 0x04).extractLsb' 0 16 = BitVec.ofNat 16 s.cfg.maxDim ∧
      (readOffset s 0x04).extractLsb' 16 8 = 32 ∧ (readOffset s 0x04).extractLsb' 24 8 = 8

/-- From R62, R78, R80, the host held as a list of transactions (log entry 2): the host's transactions are carried out
one at a time in its own order; a WAIT is one RD STATUS a turn and ends at the first word read whose bit 0 is 0. -/
def Obligations.HostTransactionsInOrder : Prop :=
  (∀ (s : State) (off : BitVec 8) (v : Word) (rest : List HostOp), off.toNat % 4 = 0 → s.rst = false →
      s.host = .wr ⟨32, off⟩ v :: rest → takeTurn .host s = .next (writeOffset off v { s with host := rest })) ∧
    (∀ (s : State) (off : BitVec 8) (rest : List HostOp), off.toNat % 4 = 0 → s.host = .rd ⟨32, off⟩ :: rest →
      takeTurn .host s = .next { s with host := rest, reads := readOffset s off :: s.reads }) ∧
    ∀ (s : State) (rest : List HostOp), s.host = .wait :: rest →
      takeTurn .host s = .next { s with host := if s.busy then .wait :: rest else rest, reads := readOffset s 0x0C :: s.reads }

/-! ## Memory -/

/-- From R55 and R65, another agent's write held as a turn (log entry 1): a grid read gives the byte last written at
that address; a write changes no other address; and the address of every cell of every grid wraps modulo 2^32. -/
def Obligations.GridReadAfterWrite : Prop :=
  ∀ (s : State) (a b : Word) (v : Byte),
    gridRead (gridWriteTurn a v s) b = (if b = a then v else gridRead s b) ∧
    ∀ w x y : Nat, (gridAddr a w x y).toNat = (a.toNat + y * w + x) % 2 ^ 32

/-- Every step keeps the canonical forms of the grid memory and of both tables. The forms are the model's (log entries
3 and 4). -/
def Obligations.StepKeepsCanonicalForms : Prop :=
  ∀ s t : State, CanonicalForms s → step s = .next t → CanonicalForms t

/-! ## Whole-machine rules -/

/-- R94: only the completion of a query (and reset, R151) writes the result registers, so NOP, ILLEGAL and BUILD leave
all of them unchanged. -/
def Obligations.OnlyQueriesWriteResults : Prop :=
  ∀ s t : State, step s = .next t → t.res ≠ s.res →
    (∃ i, isQuery i ∧ s.eng = .exec ∧ s.snap.op = .legal i ∧ t.eng = .idle) ∨ ∃ level rest, s.sched = .setReset level :: rest

/-- The spec's own inferences "no command other than BUILD writes them" (R45) and "the tables never change until the
next successful BUILD or reset" (R109): a step that changes a table, VALID or a built dimension is the engine's step of
a running BUILD whose checks pass, or a change of the reset input. -/
def Obligations.OnlyBuildWritesTables : Prop :=
  ∀ s t : State, s.Inv → step s = .next t →
    (t.vt ≠ s.vt ∨ t.nt ≠ s.nt ∨ t.valid ≠ s.valid ∨ t.builtWidth ≠ s.builtWidth ∨ t.builtHeight ≠ s.builtHeight) →
    (s.engineMoves ∧ s.rst = false ∧ s.eng ≠ .idle ∧ s.snap.op = .legal .build ∧ s.buildPasses) ∨
      ∃ level rest, s.sched = .setReset level :: rest

/-- The spec's own inference "both tables are monotonic non-decreasing" (R45): when VALID = 1 both tables are monotonic
along each row and column, a VT cell is at most 255*W*H < 2^32 and an NT cell at most W*H. -/
def Obligations.BuiltTablesAreMonotonic : Prop :=
  ∀ s : State, s.Inv → s.valid = true → ∀ x y x' y', x ≤ x' → y ≤ y' → x' ≤ s.builtWidth.toNat →
    y' ≤ s.builtHeight.toNat →
    (vtCell s x y).toNat ≤ (vtCell s x' y').toNat ∧ (ntCell s x y).toNat ≤ (ntCell s x' y').toNat ∧
      (vtCell s x' y').toNat ≤ 255 * s.builtWidth.toNat * s.builtHeight.toNat ∧
      255 * s.builtWidth.toNat * s.builtHeight.toNat < 2 ^ 32 ∧
      (ntCell s x' y').toNat ≤ s.builtWidth.toNat * s.builtHeight.toNat

/-- From R152 and R155: after reset every register reads its reset value, at the default MAX_DIM (log entry 8); the
engine is idle and IRQ is 0. -/
def Obligations.ResetWindow : Prop :=
  State.reset.window = [0x50534131, 0x08201000] ++ List.replicate 62 0x00000000 ∧ State.reset.eng = .idle ∧
    State.reset.irq = false

/-- From R151 and R154, the reset input held as a level (log entry 7): from any state, a change of it leaves the window
at its reset values and abandons a running command: BUSY, DONE, VALID and IRQ are 0. While reset is asserted the
engine's turn and a host write change nothing. -/
def Obligations.ResetAbandonsEverything : Prop :=
  ∀ (s : State) (level : Bool) (rest : List Turn), s.cfg.legal = true → s.sched = .setReset level :: rest →
    ∃ t, step s = .next t ∧ AtReset t ∧ t.rst = level ∧ statusWord t = 0x00000000 ∧ t.irq = false ∧
      t.window = [0x50534131, paramWord s.cfg] ++ List.replicate 62 0x00000000 ∧ (∀ a, gridRead t a = gridRead s a) ∧
      (level = true → engineTurn t = .next t ∧
        ∀ (a : Access) (v : Word), a.supported = true → hostWrite a v t = .next t)

/-- From R5: a configuration outside 1 to 4104 is refused by every step. -/
def Obligations.IllegalConfigRefused : Prop :=
  ∀ s : State, (s.cfg.maxDim < 1 ∨ 4104 < s.cfg.maxDim) → step s = .refused (.illegalConfig s.cfg.maxDim)

/-- The reset state meets the invariant. -/
def Obligations.ResetMeetsInvariant : Prop := State.reset.Inv

/-- Every step keeps the invariant: the canonical forms, the storage bound (R107), never OOR and CLIPPED together
(R40), DONE = 0 while BUSY (R93), the snapshot decoded (R84), the reset values held while reset is asserted (R151), the
tables of a running BUILD exact up to the write frontier (R49), and those of a completed one exact everywhere (R43,
R44). -/
def Obligations.StepKeepsInvariant : Prop := ∀ s t : State, s.Inv → step s = .next t → t.Inv

/-- From R153, R43, R48, R49, R107 (log entries 4 and 5): what the spec leaves at "any value" never matters: two states
that differ only there take the same kind of step, with the same reason if it is refused, to states that differ only
there. -/
def Obligations.UnspecifiedStateNeverMatters : Prop :=
  ∀ s t : State, s.Inv → t.Inv → SameSpecified s t → SameOutcome SameSpecified (step s) (step t)

/-- From R91: every accepted command completes after finitely many engine steps: from any busy state of the invariant
the engine reaches a completion within MAX_DIM^2 + 2 steps. -/
def Obligations.EveryCommandCompletes : Prop :=
  ∀ s : State, s.Inv → s.eng ≠ .idle →
    ∃ n ≤ s.cfg.maxDim * s.cfg.maxDim + 2, ∃ t, engineRun n s = .next t ∧ t.eng = .idle ∧ t.done = true

/-- From R80 and R166, a WAIT ends: with no turn listed (log entry 1: the busy engine then moves) the host's WAIT is
over within MAX_DIM^2 + 3 steps, and BUSY is 0 then. -/
def Obligations.WaitEnds : Prop :=
  ∀ (s : State) (rest : List HostOp), s.Inv → s.rst = false → s.sched = [] → s.host = .wait :: rest →
    ∃ n ≤ s.cfg.maxDim * s.cfg.maxDim + 3, ∃ t, core.run n s = .next t ∧ t.host = rest ∧ t.busy = false

/-! ## Host syntax -/

/-- R81, R82, and the lines of R83: the expansions of the pseudo-instructions, offsets and words written out from R19
and R73. -/
def Obligations.PseudoInstructionsExpand : Prop :=
  ∀ a b c d : Word,
    (AsmLine.build a b c).expand =
      [.wr ⟨32, 0x1C⟩ a, .wr ⟨32, 0x14⟩ b, .wr ⟨32, 0x18⟩ c, .wr ⟨32, 0x10⟩ 0x00000001, .wait] ∧
    (AsmLine.qsum a b c d).expand =
      [.wr ⟨32, 0x20⟩ a, .wr ⟨32, 0x24⟩ b, .wr ⟨32, 0x28⟩ c, .wr ⟨32, 0x2C⟩ d, .wr ⟨32, 0x10⟩ 0x00000002, .wait] ∧
    (AsmLine.qavg a b c d).expand =
      [.wr ⟨32, 0x20⟩ a, .wr ⟨32, 0x24⟩ b, .wr ⟨32, 0x28⟩ c, .wr ⟨32, 0x2C⟩ d, .wr ⟨32, 0x10⟩ 0x00000003, .wait] ∧
    (AsmLine.qnzc a b c d).expand =
      [.wr ⟨32, 0x20⟩ a, .wr ⟨32, 0x24⟩ b, .wr ⟨32, 0x28⟩ c, .wr ⟨32, 0x2C⟩ d, .wr ⟨32, 0x10⟩ 0x00000004, .wait] ∧
    (AsmLine.qnzavg a b c d).expand =
      [.wr ⟨32, 0x20⟩ a, .wr ⟨32, 0x24⟩ b, .wr ⟨32, 0x28⟩ c, .wr ⟨32, 0x2C⟩ d, .wr ⟨32, 0x10⟩ 0x00000005, .wait] ∧
    AsmLine.clear.expand = [.wr ⟨32, 0x0C⟩ 0x0000000C] ∧ AsmLine.irqon.expand = [.wr ⟨32, 0x08⟩ 0x00000001] ∧
    AsmLine.irqoff.expand = [.wr ⟨32, 0x08⟩ 0x00000000]
end

