-- ==== Sys2Proof/Laws/Cells.lean ====
section
/-! SUPPORT. Lists of (key, value) pairs in rising key order: reading after writing, and that writing keeps the order;
then the same for the grid memory and for tables. -/

namespace Sys2Proof.Machine

open Sys2Proof

/-! ### Sorted lists -/

theorem findKey_insertKey_same {β : Type} (k : Nat) (v : β) (l : List (Nat × β)) :
    findKey k (insertKey k v l) = some v := by
  induction l with
  | nil => simp [insertKey, findKey]
  | cons e rest ih =>
    obtain ⟨k', v'⟩ := e
    simp only [insertKey]
    split
    · simp [findKey]
    · split
      · simp [findKey]
      · simp [findKey, ‹¬k = k'›, ih]

theorem findKey_insertKey_other {β : Type} {k j : Nat} (h : j ≠ k) (v : β) (l : List (Nat × β)) :
    findKey j (insertKey k v l) = findKey j l := by
  induction l with
  | nil => simp [insertKey, findKey, h]
  | cons e rest ih =>
    obtain ⟨k', v'⟩ := e
    simp only [insertKey]
    split
    · simp [findKey, h]
    · split
      · subst_vars
        simp [findKey, h]
      · simp [findKey, ih]

theorem findKey_insertKey {β : Type} (k j : Nat) (v : β) (l : List (Nat × β)) :
    findKey j (insertKey k v l) = if j = k then some v else findKey j l := by
  split
  · subst_vars
    exact findKey_insertKey_same _ v l
  · exact findKey_insertKey_other ‹_› v l

theorem risingKeys_tail {β : Type} {e : Nat × β} {l : List (Nat × β)} (h : risingKeys (e :: l) = true) :
    risingKeys l = true := by
  cases l with
  | nil => rfl
  | cons e' l =>
    simp only [risingKeys, Bool.and_eq_true] at h
    exact h.2

/-- The first key of what `insertKey` answers is the new one or the old first one. -/
theorem risingKeys_cons_insertKey {β : Type} {k k0 : Nat} {v v0 : β} {l : List (Nat × β)} (hk : k0 < k)
    (h : risingKeys ((k0, v0) :: l) = true) (ih : risingKeys (insertKey k v l) = true) :
    risingKeys ((k0, v0) :: insertKey k v l) = true := by
  cases l with
  | nil => simp [insertKey, risingKeys, hk]
  | cons e rest =>
    obtain ⟨k', v'⟩ := e
    simp only [risingKeys, Bool.and_eq_true, decide_eq_true_eq] at h
    simp only [insertKey] at ih ⊢
    split at ih
    · simp_all [risingKeys]
    · split at ih
      · simp_all [risingKeys]
      · rw [if_neg ‹_›, if_neg ‹_›]
        simp only [risingKeys, Bool.and_eq_true, decide_eq_true_eq]
        exact ⟨h.1, ih⟩

theorem risingKeys_insertKey {β : Type} (k : Nat) (v : β) {l : List (Nat × β)} (h : risingKeys l = true) :
    risingKeys (insertKey k v l) = true := by
  induction l with
  | nil => rfl
  | cons e rest ih =>
    obtain ⟨k', v'⟩ := e
    have ih := ih (risingKeys_tail h)
    simp only [insertKey]
    split
    · simp only [risingKeys, Bool.and_eq_true, decide_eq_true_eq]
      exact ⟨‹_›, h⟩
    · split
      · subst_vars
        cases rest with
        | nil => rfl
        | cons e' rest =>
          simp only [risingKeys, Bool.and_eq_true, decide_eq_true_eq] at h ⊢
          exact h
      · exact risingKeys_cons_insertKey (by omega) h ih

/-- What holds of every pair and of the new one holds of every pair after a write. -/
theorem all_insertKey {β : Type} (p : Nat × β → Bool) (k : Nat) (v : β) {l : List (Nat × β)}
    (h : l.all p = true) (hv : p (k, v) = true) : (insertKey k v l).all p = true := by
  induction l with
  | nil => simp [insertKey, hv]
  | cons e rest ih =>
    obtain ⟨k', v'⟩ := e
    simp only [List.all_cons, Bool.and_eq_true] at h
    simp only [insertKey]
    split
    · simp [h.1, h.2, hv]
    · split
      · simp [h.2, hv]
      · simp [h.1, ih h.2]

theorem insertKey_ne_nil {β : Type} (k : Nat) (v : β) (l : List (Nat × β)) : insertKey k v l ≠ [] := by
  cases l with
  | nil => simp [insertKey]
  | cons e rest =>
    simp only [insertKey]
    split
    · simp
    · split <;> simp

/-- A value that is found stands in the list. -/
theorem mem_of_findKey {β : Type} {k : Nat} {v : β} {l : List (Nat × β)} (h : findKey k l = some v) : (k, v) ∈ l := by
  induction l with
  | nil => simp [findKey] at h
  | cons e rest ih =>
    obtain ⟨k', v'⟩ := e
    simp only [findKey] at h
    split at h
    · simp_all
    · exact List.mem_cons_of_mem _ (ih h)

/-! ### The grid memory -/

theorem Memory.read_write (m : Memory) (a b : Word) (v : Byte) :
    (m.write a v).read b = if b = a then some v else m.read b := by
  simp only [Memory.read, Memory.write, findKey_insertKey, BitVec.toNat_inj]

theorem Memory.wf_write {m : Memory} (h : m.wf = true) (a : Word) (v : Byte) : (m.write a v).wf = true := by
  simp only [Memory.wf, Bool.and_eq_true] at h ⊢
  exact ⟨risingKeys_insertKey _ _ h.1, all_insertKey _ _ _ h.2 (by simpa using a.isLt)⟩

/-! ### Tables -/

theorem Table.read_write (t : Table) (x y x' y' : Nat) (v : Word) :
    (t.write x y v).read x' y' = if x' = x ∧ y' = y then some v else t.read x' y' := by
  simp only [Table.read, Table.write, findKey_insertKey]
  by_cases hy : y' = y
  · subst hy
    simp only [if_true, Option.bind_some, and_true, findKey_insertKey]
    split
    · rfl
    · cases findKey y' t with
      | none => rfl
      | some r => rfl
  · simp [hy]

theorem Table.read_write_same (t : Table) (x y : Nat) (v : Word) : (t.write x y v).read x y = some v := by
  simp [Table.read_write]

theorem Table.read_write_other (t : Table) {x y x' y' : Nat} (v : Word) (h : ¬(x' = x ∧ y' = y)) :
    (t.write x y v).read x' y' = t.read x' y' := by
  simp [Table.read_write, h]

theorem Table.wf_write {t : Table} (h : t.wf = true) (x y : Nat) (v : Word) : (t.write x y v).wf = true := by
  simp only [Table.wf, Bool.and_eq_true] at h ⊢
  refine ⟨risingKeys_insertKey _ _ h.1, all_insertKey _ _ _ h.2 ?_⟩
  have hrow : risingKeys ((findKey y t).getD []) = true := by
    cases hf : findKey y t with
    | none => rfl
    | some r =>
      have := List.all_eq_true.mp h.2 _ (mem_of_findKey hf)
      simp only [Bool.and_eq_true] at this
      exact this.2
  simp [insertKey_ne_nil, risingKeys_insertKey _ _ hrow]

theorem findKey_map_range {β : Type} (f : Nat → β) (o n k : Nat) :
    findKey k ((List.range n).map fun i => (i + o, f i)) = if o ≤ k ∧ k < n + o then some (f (k - o)) else none := by
  induction n generalizing o f with
  | zero =>
    have : ¬(o ≤ k ∧ k < 0 + o) := by omega
    rw [if_neg this]
    rfl
  | succ n ih =>
    rw [List.range_succ_eq_map, List.map_cons, List.map_map]
    have hmap : (List.range n).map ((fun i => (i + o, f i)) ∘ Nat.succ)
        = (List.range n).map fun i => (i + (o + 1), f (i + 1)) := by
      apply List.map_congr_left
      intro i _
      simp only [Function.comp, Nat.succ_eq_add_one]
      rw [Nat.add_right_comm, Nat.add_assoc]
    rw [hmap]
    simp only [findKey, Nat.zero_add]
    rw [ih (fun i => f (i + 1)) (o + 1)]
    by_cases h : k = o
    · subst h
      simp
    · rw [if_neg h]
      by_cases h2 : o ≤ k ∧ k < n + 1 + o
      · rw [if_pos h2, if_pos (by omega)]
        congr 2
        omega
      · rw [if_neg h2, if_neg (by omega)]

theorem risingKeys_map_range {β : Type} (f : Nat → β) (o n : Nat) :
    risingKeys ((List.range n).map fun i => (i + o, f i)) = true := by
  induction n generalizing o f with
  | zero => rfl
  | succ n ih =>
    rw [List.range_succ_eq_map, List.map_cons, List.map_map]
    have hmap : (List.range n).map ((fun i => (i + o, f i)) ∘ Nat.succ)
        = (List.range n).map fun i => (i + (o + 1), f (i + 1)) := by
      apply List.map_congr_left
      intro i _
      simp only [Function.comp, Nat.succ_eq_add_one]
      rw [Nat.add_right_comm, Nat.add_assoc]
    rw [hmap]
    have ih := ih (fun i => f (i + 1)) (o + 1)
    cases n with
    | zero => rfl
    | succ n =>
      rw [List.range_succ_eq_map, List.map_cons] at ih ⊢
      simp only [risingKeys, Bool.and_eq_true, decide_eq_true_eq] at ih ⊢
      exact ⟨by omega, ih⟩

/-- The border lists the cells of row 0 and column 0 and no other (R100). -/
theorem Table.read_border (w h x y : Nat) :
    (Table.border w h).read x y = if (y = 0 ∧ x ≤ w) ∨ (x = 0 ∧ y ≤ h) then some 0 else none := by
  have hrow := findKey_map_range (fun _ : Nat => (0 : Word)) 0 (w + 1) x
  have hcol := findKey_map_range (fun _ : Nat => ([(0, 0)] : Row)) 1 h y
  simp only [Nat.add_zero, Nat.zero_le, true_and] at hrow
  simp only [Table.read, Table.border, findKey]
  by_cases hy : y = 0
  · subst hy
    simp only [if_true, Option.bind_some, hrow]
    by_cases hx : x < w + 1
    · rw [if_pos hx, if_pos (.inl ⟨trivial, by omega⟩)]
    · rw [if_neg hx, if_neg (by omega)]
  · rw [if_neg hy, hcol]
    by_cases hy2 : 1 ≤ y ∧ y < h + 1
    · rw [if_pos hy2]
      by_cases hx : x = 0
      · rw [if_pos (by omega)]
        simp [findKey, hx]
      · rw [if_neg (by omega)]
        simp [findKey, hx]
    · rw [if_neg hy2, if_neg (by omega)]
      rfl

theorem Table.wf_border (w h : Nat) : (Table.border w h).wf = true := by
  have hcol := risingKeys_map_range (fun _ : Nat => ([(0, 0)] : Row)) 1 h
  have hrow := risingKeys_map_range (fun _ : Nat => (0 : Word)) 0 (w + 1)
  simp only [Nat.add_zero] at hrow
  simp only [Table.wf, Table.border, Bool.and_eq_true, List.all_cons, List.all_map]
  refine ⟨?_, ⟨?_, hrow⟩, ?_⟩
  · cases h with
    | zero => rfl
    | succ h =>
      rw [show List.range (h + 1) = 0 :: (List.range h).map Nat.succ from List.range_succ_eq_map, List.map_cons]
        at hcol ⊢
      exact Bool.and_eq_true_iff.mpr ⟨rfl, hcol⟩
  · simp
  · simp [Function.comp_def, risingKeys]

end Sys2Proof.Machine
end

