-- ==== Sys2Proof/Laws/State.lean ====
section
/-! SUPPORT. One lemma for each field of State under each update of the machine, true by definition, so that no proof unfolds
a record update. -/

namespace Sys2Proof.Machine

open Sys2Proof

/-! ### complete code s: complete(code), R86 -/

@[simp] theorem complete_cfg (code : Completion) (s : State) : (complete code s).cfg = s.cfg := rfl
@[simp] theorem complete_ie (code : Completion) (s : State) : (complete code s).ie = s.ie := rfl
@[simp] theorem complete_eng (code : Completion) (s : State) : (complete code s).eng = .idle := rfl
@[simp] theorem complete_valid (code : Completion) (s : State) : (complete code s).valid = s.valid := rfl
@[simp] theorem complete_done (code : Completion) (s : State) : (complete code s).done = true := rfl
@[simp] theorem complete_drop (code : Completion) (s : State) : (complete code s).drop = s.drop := rfl
@[simp] theorem complete_err (code : Completion) (s : State) : (complete code s).err = code := rfl
@[simp] theorem complete_ops (code : Completion) (s : State) : (complete code s).ops = s.ops := rfl
@[simp] theorem complete_res (code : Completion) (s : State) : (complete code s).res = s.res := rfl
@[simp] theorem complete_builtWidth (code : Completion) (s : State) : (complete code s).builtWidth = s.builtWidth := rfl
@[simp] theorem complete_builtHeight (code : Completion) (s : State) :
    (complete code s).builtHeight = s.builtHeight := rfl
@[simp] theorem complete_vt (code : Completion) (s : State) : (complete code s).vt = s.vt := rfl
@[simp] theorem complete_nt (code : Completion) (s : State) : (complete code s).nt = s.nt := rfl
@[simp] theorem complete_snap (code : Completion) (s : State) : (complete code s).snap = s.snap := rfl
@[simp] theorem complete_cx (code : Completion) (s : State) : (complete code s).cx = s.cx := rfl
@[simp] theorem complete_cy (code : Completion) (s : State) : (complete code s).cy = s.cy := rfl
@[simp] theorem complete_grid (code : Completion) (s : State) : (complete code s).grid = s.grid := rfl
@[simp] theorem complete_rst (code : Completion) (s : State) : (complete code s).rst = s.rst := rfl
@[simp] theorem complete_host (code : Completion) (s : State) : (complete code s).host = s.host := rfl
@[simp] theorem complete_sched (code : Completion) (s : State) : (complete code s).sched = s.sched := rfl
@[simp] theorem complete_reads (code : Completion) (s : State) : (complete code s).reads = s.reads := rfl
@[simp] theorem complete_epoch (code : Completion) (s : State) : (complete code s).epoch = s.epoch := rfl

/-! ### accept w s: acceptance, R84 -/

@[simp] theorem accept_cfg (w : Word) (s : State) : (accept w s).cfg = s.cfg := rfl
@[simp] theorem accept_ie (w : Word) (s : State) : (accept w s).ie = s.ie := rfl
@[simp] theorem accept_eng (w : Word) (s : State) : (accept w s).eng = .exec := rfl
@[simp] theorem accept_valid (w : Word) (s : State) : (accept w s).valid = s.valid := rfl
@[simp] theorem accept_done (w : Word) (s : State) : (accept w s).done = false := rfl
@[simp] theorem accept_drop (w : Word) (s : State) : (accept w s).drop = s.drop := rfl
@[simp] theorem accept_err (w : Word) (s : State) : (accept w s).err = s.err := rfl
@[simp] theorem accept_ops (w : Word) (s : State) : (accept w s).ops = s.ops := rfl
@[simp] theorem accept_res (w : Word) (s : State) : (accept w s).res = s.res := rfl
@[simp] theorem accept_builtWidth (w : Word) (s : State) : (accept w s).builtWidth = s.builtWidth := rfl
@[simp] theorem accept_builtHeight (w : Word) (s : State) : (accept w s).builtHeight = s.builtHeight := rfl
@[simp] theorem accept_vt (w : Word) (s : State) : (accept w s).vt = s.vt := rfl
@[simp] theorem accept_nt (w : Word) (s : State) : (accept w s).nt = s.nt := rfl
@[simp] theorem accept_snap (w : Word) (s : State) :
    (accept w s).snap = { op := decode w, cmdword := w, ops := s.ops } := rfl
@[simp] theorem accept_cx (w : Word) (s : State) : (accept w s).cx = s.cx := rfl
@[simp] theorem accept_cy (w : Word) (s : State) : (accept w s).cy = s.cy := rfl
@[simp] theorem accept_grid (w : Word) (s : State) : (accept w s).grid = s.grid := rfl
@[simp] theorem accept_rst (w : Word) (s : State) : (accept w s).rst = s.rst := rfl
@[simp] theorem accept_host (w : Word) (s : State) : (accept w s).host = s.host := rfl
@[simp] theorem accept_sched (w : Word) (s : State) : (accept w s).sched = s.sched := rfl
@[simp] theorem accept_reads (w : Word) (s : State) : (accept w s).reads = s.reads := rfl
@[simp] theorem accept_epoch (w : Word) (s : State) : (accept w s).epoch = s.epoch := rfl

/-! ### writeStatus v s: a STATUS write, R29 -/

@[simp] theorem writeStatus_cfg (v : Word) (s : State) : (writeStatus v s).cfg = s.cfg := rfl
@[simp] theorem writeStatus_ie (v : Word) (s : State) : (writeStatus v s).ie = s.ie := rfl
@[simp] theorem writeStatus_eng (v : Word) (s : State) : (writeStatus v s).eng = s.eng := rfl
@[simp] theorem writeStatus_valid (v : Word) (s : State) : (writeStatus v s).valid = s.valid := rfl
@[simp] theorem writeStatus_done (v : Word) (s : State) : (writeStatus v s).done = w1c s.done (v.getLsbD 2) := rfl
@[simp] theorem writeStatus_drop (v : Word) (s : State) : (writeStatus v s).drop = w1c s.drop (v.getLsbD 3) := rfl
@[simp] theorem writeStatus_err (v : Word) (s : State) : (writeStatus v s).err = s.err := rfl
@[simp] theorem writeStatus_ops (v : Word) (s : State) : (writeStatus v s).ops = s.ops := rfl
@[simp] theorem writeStatus_res (v : Word) (s : State) : (writeStatus v s).res = s.res := rfl
@[simp] theorem writeStatus_builtWidth (v : Word) (s : State) : (writeStatus v s).builtWidth = s.builtWidth := rfl
@[simp] theorem writeStatus_builtHeight (v : Word) (s : State) : (writeStatus v s).builtHeight = s.builtHeight := rfl
@[simp] theorem writeStatus_vt (v : Word) (s : State) : (writeStatus v s).vt = s.vt := rfl
@[simp] theorem writeStatus_nt (v : Word) (s : State) : (writeStatus v s).nt = s.nt := rfl
@[simp] theorem writeStatus_snap (v : Word) (s : State) : (writeStatus v s).snap = s.snap := rfl
@[simp] theorem writeStatus_cx (v : Word) (s : State) : (writeStatus v s).cx = s.cx := rfl
@[simp] theorem writeStatus_cy (v : Word) (s : State) : (writeStatus v s).cy = s.cy := rfl
@[simp] theorem writeStatus_grid (v : Word) (s : State) : (writeStatus v s).grid = s.grid := rfl
@[simp] theorem writeStatus_rst (v : Word) (s : State) : (writeStatus v s).rst = s.rst := rfl
@[simp] theorem writeStatus_host (v : Word) (s : State) : (writeStatus v s).host = s.host := rfl
@[simp] theorem writeStatus_sched (v : Word) (s : State) : (writeStatus v s).sched = s.sched := rfl
@[simp] theorem writeStatus_reads (v : Word) (s : State) : (writeStatus v s).reads = s.reads := rfl
@[simp] theorem writeStatus_epoch (v : Word) (s : State) : (writeStatus v s).epoch = s.epoch := rfl

/-! ### writeCtrl v s: a CTRL write, R23 -/

@[simp] theorem writeCtrl_cfg (v : Word) (s : State) : (writeCtrl v s).cfg = s.cfg := rfl
@[simp] theorem writeCtrl_ie (v : Word) (s : State) : (writeCtrl v s).ie = v.getLsbD 0 := rfl
@[simp] theorem writeCtrl_eng (v : Word) (s : State) : (writeCtrl v s).eng = s.eng := rfl
@[simp] theorem writeCtrl_valid (v : Word) (s : State) : (writeCtrl v s).valid = s.valid := rfl
@[simp] theorem writeCtrl_done (v : Word) (s : State) : (writeCtrl v s).done = s.done := rfl
@[simp] theorem writeCtrl_drop (v : Word) (s : State) : (writeCtrl v s).drop = s.drop := rfl
@[simp] theorem writeCtrl_err (v : Word) (s : State) : (writeCtrl v s).err = s.err := rfl
@[simp] theorem writeCtrl_ops (v : Word) (s : State) : (writeCtrl v s).ops = s.ops := rfl
@[simp] theorem writeCtrl_res (v : Word) (s : State) : (writeCtrl v s).res = s.res := rfl
@[simp] theorem writeCtrl_builtWidth (v : Word) (s : State) : (writeCtrl v s).builtWidth = s.builtWidth := rfl
@[simp] theorem writeCtrl_builtHeight (v : Word) (s : State) : (writeCtrl v s).builtHeight = s.builtHeight := rfl
@[simp] theorem writeCtrl_vt (v : Word) (s : State) : (writeCtrl v s).vt = s.vt := rfl
@[simp] theorem writeCtrl_nt (v : Word) (s : State) : (writeCtrl v s).nt = s.nt := rfl
@[simp] theorem writeCtrl_snap (v : Word) (s : State) : (writeCtrl v s).snap = s.snap := rfl
@[simp] theorem writeCtrl_cx (v : Word) (s : State) : (writeCtrl v s).cx = s.cx := rfl
@[simp] theorem writeCtrl_cy (v : Word) (s : State) : (writeCtrl v s).cy = s.cy := rfl
@[simp] theorem writeCtrl_grid (v : Word) (s : State) : (writeCtrl v s).grid = s.grid := rfl
@[simp] theorem writeCtrl_rst (v : Word) (s : State) : (writeCtrl v s).rst = s.rst := rfl
@[simp] theorem writeCtrl_host (v : Word) (s : State) : (writeCtrl v s).host = s.host := rfl
@[simp] theorem writeCtrl_sched (v : Word) (s : State) : (writeCtrl v s).sched = s.sched := rfl
@[simp] theorem writeCtrl_reads (v : Word) (s : State) : (writeCtrl v s).reads = s.reads := rfl
@[simp] theorem writeCtrl_epoch (v : Word) (s : State) : (writeCtrl v s).epoch = s.epoch := rfl

/-! ### buildStart w h s: BUILD's start step, R100 -/

@[simp] theorem buildStart_cfg (w h : Nat) (s : State) : (buildStart w h s).cfg = s.cfg := rfl
@[simp] theorem buildStart_ie (w h : Nat) (s : State) : (buildStart w h s).ie = s.ie := rfl
@[simp] theorem buildStart_eng (w h : Nat) (s : State) : (buildStart w h s).eng = .building := rfl
@[simp] theorem buildStart_valid (w h : Nat) (s : State) : (buildStart w h s).valid = false := rfl
@[simp] theorem buildStart_done (w h : Nat) (s : State) : (buildStart w h s).done = s.done := rfl
@[simp] theorem buildStart_drop (w h : Nat) (s : State) : (buildStart w h s).drop = s.drop := rfl
@[simp] theorem buildStart_err (w h : Nat) (s : State) : (buildStart w h s).err = s.err := rfl
@[simp] theorem buildStart_ops (w h : Nat) (s : State) : (buildStart w h s).ops = s.ops := rfl
@[simp] theorem buildStart_res (w h : Nat) (s : State) : (buildStart w h s).res = s.res := rfl
@[simp] theorem buildStart_builtWidth (w h : Nat) (s : State) : (buildStart w h s).builtWidth = s.builtWidth := rfl
@[simp] theorem buildStart_builtHeight (w h : Nat) (s : State) : (buildStart w h s).builtHeight = s.builtHeight := rfl
@[simp] theorem buildStart_vt (w h : Nat) (s : State) : (buildStart w h s).vt = Table.border w h := rfl
@[simp] theorem buildStart_nt (w h : Nat) (s : State) : (buildStart w h s).nt = Table.border w h := rfl
@[simp] theorem buildStart_snap (w h : Nat) (s : State) : (buildStart w h s).snap = s.snap := rfl
@[simp] theorem buildStart_cx (w h : Nat) (s : State) : (buildStart w h s).cx = 0 := rfl
@[simp] theorem buildStart_cy (w h : Nat) (s : State) : (buildStart w h s).cy = 0 := rfl
@[simp] theorem buildStart_grid (w h : Nat) (s : State) : (buildStart w h s).grid = s.grid := rfl
@[simp] theorem buildStart_rst (w h : Nat) (s : State) : (buildStart w h s).rst = s.rst := rfl
@[simp] theorem buildStart_host (w h : Nat) (s : State) : (buildStart w h s).host = s.host := rfl
@[simp] theorem buildStart_sched (w h : Nat) (s : State) : (buildStart w h s).sched = s.sched := rfl
@[simp] theorem buildStart_reads (w h : Nat) (s : State) : (buildStart w h s).reads = s.reads := rfl
@[simp] theorem buildStart_epoch (w h : Nat) (s : State) : (buildStart w h s).epoch = s.epoch + 1 := rfl

/-! ### buildCell s: BUILD's cell step, R101 to R103 -/

@[simp] theorem buildCell_cfg (s : State) : (buildCell s).cfg = s.cfg := rfl
@[simp] theorem buildCell_ie (s : State) : (buildCell s).ie = s.ie := rfl
@[simp] theorem buildCell_eng (s : State) : (buildCell s).eng = s.eng := rfl
@[simp] theorem buildCell_valid (s : State) : (buildCell s).valid = s.valid := rfl
@[simp] theorem buildCell_done (s : State) : (buildCell s).done = s.done := rfl
@[simp] theorem buildCell_drop (s : State) : (buildCell s).drop = s.drop := rfl
@[simp] theorem buildCell_err (s : State) : (buildCell s).err = s.err := rfl
@[simp] theorem buildCell_ops (s : State) : (buildCell s).ops = s.ops := rfl
@[simp] theorem buildCell_res (s : State) : (buildCell s).res = s.res := rfl
@[simp] theorem buildCell_builtWidth (s : State) : (buildCell s).builtWidth = s.builtWidth := rfl
@[simp] theorem buildCell_builtHeight (s : State) : (buildCell s).builtHeight = s.builtHeight := rfl
@[simp] theorem buildCell_vt (s : State) :
    (buildCell s).vt = s.vt.write (s.cx + 1) (s.cy + 1) (recurrence ((cellByte s).setWidth 32) (vtCell s) s.cx s.cy) := rfl
@[simp] theorem buildCell_nt (s : State) :
    (buildCell s).nt = s.nt.write (s.cx + 1) (s.cy + 1) (recurrence (nz (cellByte s)) (ntCell s) s.cx s.cy) := rfl
@[simp] theorem buildCell_snap (s : State) : (buildCell s).snap = s.snap := rfl
@[simp] theorem buildCell_cx (s : State) : (buildCell s).cx = if s.cx + 1 = s.runWidth then 0 else s.cx + 1 := rfl
@[simp] theorem buildCell_cy (s : State) : (buildCell s).cy = if s.cx + 1 = s.runWidth then s.cy + 1 else s.cy := rfl
@[simp] theorem buildCell_grid (s : State) : (buildCell s).grid = s.grid := rfl
@[simp] theorem buildCell_rst (s : State) : (buildCell s).rst = s.rst := rfl
@[simp] theorem buildCell_host (s : State) : (buildCell s).host = s.host := rfl
@[simp] theorem buildCell_sched (s : State) : (buildCell s).sched = s.sched := rfl
@[simp] theorem buildCell_reads (s : State) : (buildCell s).reads = s.reads := rfl
@[simp] theorem buildCell_epoch (s : State) : (buildCell s).epoch = s.epoch := rfl

/-! ### buildFinish s: BUILD's finish step, R105 -/

@[simp] theorem buildFinish_cfg (s : State) : (buildFinish s).cfg = s.cfg := rfl
@[simp] theorem buildFinish_ie (s : State) : (buildFinish s).ie = s.ie := rfl
@[simp] theorem buildFinish_eng (s : State) : (buildFinish s).eng = .idle := rfl
@[simp] theorem buildFinish_valid (s : State) : (buildFinish s).valid = true := rfl
@[simp] theorem buildFinish_done (s : State) : (buildFinish s).done = true := rfl
@[simp] theorem buildFinish_drop (s : State) : (buildFinish s).drop = s.drop := rfl
@[simp] theorem buildFinish_err (s : State) : (buildFinish s).err = .ok := rfl
@[simp] theorem buildFinish_ops (s : State) : (buildFinish s).ops = s.ops := rfl
@[simp] theorem buildFinish_res (s : State) : (buildFinish s).res = s.res := rfl
@[simp] theorem buildFinish_builtWidth (s : State) : (buildFinish s).builtWidth = BitVec.ofNat 32 s.runWidth := rfl
@[simp] theorem buildFinish_builtHeight (s : State) : (buildFinish s).builtHeight = BitVec.ofNat 32 s.runHeight := rfl
@[simp] theorem buildFinish_vt (s : State) : (buildFinish s).vt = s.vt := rfl
@[simp] theorem buildFinish_nt (s : State) : (buildFinish s).nt = s.nt := rfl
@[simp] theorem buildFinish_snap (s : State) : (buildFinish s).snap = s.snap := rfl
@[simp] theorem buildFinish_cx (s : State) : (buildFinish s).cx = s.cx := rfl
@[simp] theorem buildFinish_cy (s : State) : (buildFinish s).cy = s.cy := rfl
@[simp] theorem buildFinish_grid (s : State) : (buildFinish s).grid = s.grid := rfl
@[simp] theorem buildFinish_rst (s : State) : (buildFinish s).rst = s.rst := rfl
@[simp] theorem buildFinish_host (s : State) : (buildFinish s).host = s.host := rfl
@[simp] theorem buildFinish_sched (s : State) : (buildFinish s).sched = s.sched := rfl
@[simp] theorem buildFinish_reads (s : State) : (buildFinish s).reads = s.reads := rfl
@[simp] theorem buildFinish_epoch (s : State) : (buildFinish s).epoch = s.epoch := rfl

/-! ### hostPoll rest s: one round of WAIT, R80 -/

@[simp] theorem hostPoll_cfg (rest : List HostOp) (s : State) : (hostPoll rest s).cfg = s.cfg := rfl
@[simp] theorem hostPoll_ie (rest : List HostOp) (s : State) : (hostPoll rest s).ie = s.ie := rfl
@[simp] theorem hostPoll_eng (rest : List HostOp) (s : State) : (hostPoll rest s).eng = s.eng := rfl
@[simp] theorem hostPoll_valid (rest : List HostOp) (s : State) : (hostPoll rest s).valid = s.valid := rfl
@[simp] theorem hostPoll_done (rest : List HostOp) (s : State) : (hostPoll rest s).done = s.done := rfl
@[simp] theorem hostPoll_drop (rest : List HostOp) (s : State) : (hostPoll rest s).drop = s.drop := rfl
@[simp] theorem hostPoll_err (rest : List HostOp) (s : State) : (hostPoll rest s).err = s.err := rfl
@[simp] theorem hostPoll_ops (rest : List HostOp) (s : State) : (hostPoll rest s).ops = s.ops := rfl
@[simp] theorem hostPoll_res (rest : List HostOp) (s : State) : (hostPoll rest s).res = s.res := rfl
@[simp] theorem hostPoll_builtWidth (rest : List HostOp) (s : State) :
    (hostPoll rest s).builtWidth = s.builtWidth := rfl
@[simp] theorem hostPoll_builtHeight (rest : List HostOp) (s : State) :
    (hostPoll rest s).builtHeight = s.builtHeight := rfl
@[simp] theorem hostPoll_vt (rest : List HostOp) (s : State) : (hostPoll rest s).vt = s.vt := rfl
@[simp] theorem hostPoll_nt (rest : List HostOp) (s : State) : (hostPoll rest s).nt = s.nt := rfl
@[simp] theorem hostPoll_snap (rest : List HostOp) (s : State) : (hostPoll rest s).snap = s.snap := rfl
@[simp] theorem hostPoll_cx (rest : List HostOp) (s : State) : (hostPoll rest s).cx = s.cx := rfl
@[simp] theorem hostPoll_cy (rest : List HostOp) (s : State) : (hostPoll rest s).cy = s.cy := rfl
@[simp] theorem hostPoll_grid (rest : List HostOp) (s : State) : (hostPoll rest s).grid = s.grid := rfl
@[simp] theorem hostPoll_rst (rest : List HostOp) (s : State) : (hostPoll rest s).rst = s.rst := rfl
@[simp] theorem hostPoll_host (rest : List HostOp) (s : State) :
    (hostPoll rest s).host = if (readReg s .status).getLsbD 0 then .wait :: rest else rest := rfl
@[simp] theorem hostPoll_sched (rest : List HostOp) (s : State) : (hostPoll rest s).sched = s.sched := rfl
@[simp] theorem hostPoll_reads (rest : List HostOp) (s : State) :
    (hostPoll rest s).reads = readReg s .status :: s.reads := rfl
@[simp] theorem hostPoll_epoch (rest : List HostOp) (s : State) : (hostPoll rest s).epoch = s.epoch := rfl

/-! ### gridWriteTurn a b s: another agent's grid write, R65 -/

@[simp] theorem gridWriteTurn_cfg (a : Word) (b : Byte) (s : State) : (gridWriteTurn a b s).cfg = s.cfg := rfl
@[simp] theorem gridWriteTurn_ie (a : Word) (b : Byte) (s : State) : (gridWriteTurn a b s).ie = s.ie := rfl
@[simp] theorem gridWriteTurn_eng (a : Word) (b : Byte) (s : State) : (gridWriteTurn a b s).eng = s.eng := rfl
@[simp] theorem gridWriteTurn_valid (a : Word) (b : Byte) (s : State) : (gridWriteTurn a b s).valid = s.valid := rfl
@[simp] theorem gridWriteTurn_done (a : Word) (b : Byte) (s : State) : (gridWriteTurn a b s).done = s.done := rfl
@[simp] theorem gridWriteTurn_drop (a : Word) (b : Byte) (s : State) : (gridWriteTurn a b s).drop = s.drop := rfl
@[simp] theorem gridWriteTurn_err (a : Word) (b : Byte) (s : State) : (gridWriteTurn a b s).err = s.err := rfl
@[simp] theorem gridWriteTurn_ops (a : Word) (b : Byte) (s : State) : (gridWriteTurn a b s).ops = s.ops := rfl
@[simp] theorem gridWriteTurn_res (a : Word) (b : Byte) (s : State) : (gridWriteTurn a b s).res = s.res := rfl
@[simp] theorem gridWriteTurn_builtWidth (a : Word) (b : Byte) (s : State) :
    (gridWriteTurn a b s).builtWidth = s.builtWidth := rfl
@[simp] theorem gridWriteTurn_builtHeight (a : Word) (b : Byte) (s : State) :
    (gridWriteTurn a b s).builtHeight = s.builtHeight := rfl
@[simp] theorem gridWriteTurn_vt (a : Word) (b : Byte) (s : State) : (gridWriteTurn a b s).vt = s.vt := rfl
@[simp] theorem gridWriteTurn_nt (a : Word) (b : Byte) (s : State) : (gridWriteTurn a b s).nt = s.nt := rfl
@[simp] theorem gridWriteTurn_snap (a : Word) (b : Byte) (s : State) : (gridWriteTurn a b s).snap = s.snap := rfl
@[simp] theorem gridWriteTurn_cx (a : Word) (b : Byte) (s : State) : (gridWriteTurn a b s).cx = s.cx := rfl
@[simp] theorem gridWriteTurn_cy (a : Word) (b : Byte) (s : State) : (gridWriteTurn a b s).cy = s.cy := rfl
@[simp] theorem gridWriteTurn_grid (a : Word) (b : Byte) (s : State) :
    (gridWriteTurn a b s).grid = s.grid.write a b := rfl
@[simp] theorem gridWriteTurn_rst (a : Word) (b : Byte) (s : State) : (gridWriteTurn a b s).rst = s.rst := rfl
@[simp] theorem gridWriteTurn_host (a : Word) (b : Byte) (s : State) : (gridWriteTurn a b s).host = s.host := rfl
@[simp] theorem gridWriteTurn_sched (a : Word) (b : Byte) (s : State) : (gridWriteTurn a b s).sched = s.sched := rfl
@[simp] theorem gridWriteTurn_reads (a : Word) (b : Byte) (s : State) : (gridWriteTurn a b s).reads = s.reads := rfl
@[simp] theorem gridWriteTurn_epoch (a : Word) (b : Byte) (s : State) : (gridWriteTurn a b s).epoch = s.epoch := rfl

/-! ### resetPsa level s: the reset input, R151 to R154 -/

@[simp] theorem resetPsa_cfg (level : Bool) (s : State) : (resetPsa level s).cfg = s.cfg := rfl
@[simp] theorem resetPsa_ie (level : Bool) (s : State) : (resetPsa level s).ie = false := rfl
@[simp] theorem resetPsa_eng (level : Bool) (s : State) : (resetPsa level s).eng = .idle := rfl
@[simp] theorem resetPsa_valid (level : Bool) (s : State) : (resetPsa level s).valid = false := rfl
@[simp] theorem resetPsa_done (level : Bool) (s : State) : (resetPsa level s).done = false := rfl
@[simp] theorem resetPsa_drop (level : Bool) (s : State) : (resetPsa level s).drop = false := rfl
@[simp] theorem resetPsa_err (level : Bool) (s : State) : (resetPsa level s).err = .ok := rfl
@[simp] theorem resetPsa_ops (level : Bool) (s : State) : (resetPsa level s).ops = Operands.zero := rfl
@[simp] theorem resetPsa_res (level : Bool) (s : State) : (resetPsa level s).res = Results.zero := rfl
@[simp] theorem resetPsa_builtWidth (level : Bool) (s : State) : (resetPsa level s).builtWidth = 0 := rfl
@[simp] theorem resetPsa_builtHeight (level : Bool) (s : State) : (resetPsa level s).builtHeight = 0 := rfl
@[simp] theorem resetPsa_vt (level : Bool) (s : State) : (resetPsa level s).vt = [] := rfl
@[simp] theorem resetPsa_nt (level : Bool) (s : State) : (resetPsa level s).nt = [] := rfl
@[simp] theorem resetPsa_snap (level : Bool) (s : State) : (resetPsa level s).snap = Snapshot.zero := rfl
@[simp] theorem resetPsa_cx (level : Bool) (s : State) : (resetPsa level s).cx = 0 := rfl
@[simp] theorem resetPsa_cy (level : Bool) (s : State) : (resetPsa level s).cy = 0 := rfl
@[simp] theorem resetPsa_grid (level : Bool) (s : State) : (resetPsa level s).grid = s.grid := rfl
@[simp] theorem resetPsa_rst (level : Bool) (s : State) : (resetPsa level s).rst = level := rfl
@[simp] theorem resetPsa_host (level : Bool) (s : State) : (resetPsa level s).host = s.host := rfl
@[simp] theorem resetPsa_sched (level : Bool) (s : State) : (resetPsa level s).sched = s.sched := rfl
@[simp] theorem resetPsa_reads (level : Bool) (s : State) : (resetPsa level s).reads = s.reads := rfl
@[simp] theorem resetPsa_epoch (level : Bool) (s : State) : (resetPsa level s).epoch = s.epoch + 1 := rfl

end Sys2Proof.Machine
end

