-- ==== Sys2Proof/Laws/Step.lean ====
section
/-! SUPPORT. What an engine step and a step of the whole can do, said once: every later proof takes these cases apart
instead of unfolding the step. -/

namespace Sys2Proof.Machine

open Sys2Proof

/-! ### Operand facts the engine's cases are stated with -/

theorem runWidth_eq (s : State) : s.runWidth = s.snap.ops.width.toInt.toNat := rfl

theorem runHeight_eq (s : State) : s.runHeight = s.snap.ops.height.toInt.toNat := rfl

/-- The dimensions of a BUILD whose checks pass. -/
theorem buildPasses_dims {s : State} (h : s.buildPasses) :
    1 ≤ s.runWidth ∧ s.runWidth ≤ s.cfg.maxDim ∧ 1 ≤ s.runHeight ∧ s.runHeight ≤ s.cfg.maxDim := by
  obtain ⟨-, hw, hh, hw', hh'⟩ := h
  rw [runWidth_eq, runHeight_eq]
  omega

/-! ### The engine -/

/-- What one engine step of a busy engine does (R87). -/
inductive EngineEffect (s : State) : State → Prop where
  | nop : s.eng = .exec → s.snap.op = .legal .nop → EngineEffect s (complete .ok s)
  | illegal (why : Illegal) : s.eng = .exec → s.snap.op = .illegal why → EngineEffect s (complete .illegalCmd s)
  | buildFails (code : Completion) : s.eng = .exec → s.snap.op = .legal .build → ¬s.buildPasses →
      code ∈ [Completion.nullBuffer, .invalidSize, .sizeLimit] → EngineEffect s (complete code s)
  | buildStarts : s.eng = .exec → s.snap.op = .legal .build → s.buildPasses →
      EngineEffect s (buildStart s.runWidth s.runHeight s)
  | query (i : Instr) (code : Completion) (r : Results) : s.eng = .exec → s.snap.op = .legal i → isQuery i →
      code ∈ [Completion.ok, .noTable] → (r.oor && r.clipped) = false →
      EngineEffect s (complete code { s with res := r })
  | cell : s.eng = .building → s.cy ≠ s.runHeight → EngineEffect s (buildCell s)
  | finish : s.eng = .building → s.cy = s.runHeight → EngineEffect s (buildFinish s)

theorem invalidSize_iff (o : Operands) : o.invalidSize = true ↔ o.width.toInt ≤ 0 ∨ o.height.toInt ≤ 0 := by
  simp only [Operands.invalidSize, Bool.or_eq_true, decide_eq_true_eq]
  rfl

theorem overLimit_iff (o : Operands) (m : Nat) :
    o.overLimit m = true ↔ (m : Int) < o.width.toInt ∨ (m : Int) < o.height.toInt := by
  simp only [Operands.overLimit, Bool.or_eq_true, decide_eq_true_eq]
  rfl

/-- R96. -/
theorem execBuild_nullBuffer {s : State} (h : s.snap.ops.gridBase = 0) :
    execBuild s = .next (complete .nullBuffer s) := by
  rw [execBuild, if_pos h]

/-- R97. -/
theorem execBuild_invalidSize {s : State} (hb : s.snap.ops.gridBase ≠ 0)
    (h : s.snap.ops.width.toInt ≤ 0 ∨ s.snap.ops.height.toInt ≤ 0) :
    execBuild s = .next (complete .invalidSize s) := by
  rw [execBuild, if_neg hb, if_pos ((invalidSize_iff _).mpr h)]

/-- R98. -/
theorem execBuild_sizeLimit {s : State} (hb : s.snap.ops.gridBase ≠ 0)
    (hs : ¬(s.snap.ops.width.toInt ≤ 0 ∨ s.snap.ops.height.toInt ≤ 0))
    (h : (s.cfg.maxDim : Int) < s.snap.ops.width.toInt ∨ (s.cfg.maxDim : Int) < s.snap.ops.height.toInt) :
    execBuild s = .next (complete .sizeLimit s) := by
  rw [execBuild, if_neg hb, if_neg (mt (invalidSize_iff _).mp hs), if_pos ((overLimit_iff _ _).mpr h)]

/-- R100. -/
theorem execBuild_passes {s : State} (h : s.buildPasses) :
    execBuild s = .next (buildStart s.runWidth s.runHeight s) := by
  obtain ⟨hb, hw, hh, hw', hh'⟩ := h
  rw [execBuild, if_neg hb, if_neg (mt (invalidSize_iff _).mp (by omega)),
    if_neg (mt (overLimit_iff _ _).mp (by omega))]

/-- BUILD's EXEC step either starts or fails a check (R95, R99). -/
theorem execBuild_cases (s : State) :
    (s.buildPasses ∧ execBuild s = .next (buildStart s.runWidth s.runHeight s)) ∨
      (¬s.buildPasses ∧ ∃ code ∈ [Completion.nullBuffer, .invalidSize, .sizeLimit],
        execBuild s = .next (complete code s)) := by
  by_cases hp : s.buildPasses
  · exact .inl ⟨hp, execBuild_passes hp⟩
  · refine .inr ⟨hp, ?_⟩
    by_cases hb : s.snap.ops.gridBase = 0
    · exact ⟨_, by simp, execBuild_nullBuffer hb⟩
    · by_cases hs : s.snap.ops.width.toInt ≤ 0 ∨ s.snap.ops.height.toInt ≤ 0
      · exact ⟨_, by simp, execBuild_invalidSize hb hs⟩
      · refine ⟨_, by simp, execBuild_sizeLimit hb hs ?_⟩
        unfold State.buildPasses at hp
        by_contra hl
        exact hp ⟨hb, by omega, by omega, by omega, by omega⟩

/-- A query completes in its one step, whatever its kind, and never sets OOR and CLIPPED together (R40, R133). -/
theorem runQuery_cases (own : Clamped → OwnResults) (s : State) :
    ∃ code ∈ [Completion.ok, .noTable], ∃ r : Results, (r.oor && r.clipped) = false ∧
      runQuery own s = .next (complete code { s with res := r }) := by
  unfold runQuery
  split
  · split
    · exact ⟨.ok, by simp, oorResults, rfl, rfl⟩
    · exact ⟨.ok, by simp, _, rfl, rfl⟩
  · exact ⟨.noTable, by simp, Results.zero, rfl, rfl⟩

/-- What each query kind writes for itself. -/
def ownResults (i : Instr) (s : State) : Clamped → OwnResults :=
  match i with
  | .nop => fun _ => ⟨0, 0, 0⟩
  | .build => fun _ => ⟨0, 0, 0⟩
  | .qsum => ownQsum s
  | .qavg => ownQavg s
  | .qnzc => ownQnzc s
  | .qnzavg => ownQnzavg s

/-- A query command is the shared query step with its kind's own results. -/
theorem exec_query {i : Instr} (h : isQuery i) (s : State) : exec i s = runQuery (ownResults i s) s := by
  obtain rfl | rfl | rfl | rfl := h <;> rfl

theorem engineStep_exec {s : State} (h : s.eng = .exec) {i : Instr} (hi : s.snap.op = .legal i) :
    engineStep s = exec i s := by
  simp only [engineStep, h, hi]

theorem engineStep_building {s : State} (h : s.eng = .building) : engineStep s = buildStep s := by
  simp only [engineStep, h]

/-- A busy engine always takes a step, and it is one of these. -/
theorem engineStep_effect {s : State} (h : s.eng ≠ .idle) : ∃ t, engineStep s = .next t ∧ EngineEffect s t := by
  cases he : s.eng with
  | idle => exact absurd he h
  | building =>
    rw [engineStep_building he]
    unfold buildStep
    split
    · exact ⟨_, rfl, .finish he ‹_›⟩
    · exact ⟨_, rfl, .cell he ‹_›⟩
  | exec =>
    cases ho : s.snap.op with
    | illegal why => exact ⟨complete .illegalCmd s, by simp only [engineStep, he, ho]; rfl, .illegal why he ho⟩
    | legal i =>
      rw [engineStep_exec he ho]
      have query : isQuery i → ∃ t, exec i s = .next t ∧ EngineEffect s t := fun hq => by
        obtain ⟨code, hc, r, hr, hrun⟩ := runQuery_cases (ownResults i s) s
        exact ⟨_, (exec_query hq s).trans hrun, .query i code r he ho hq hc hr⟩
      cases i with
      | nop => exact ⟨_, rfl, .nop he ho⟩
      | build =>
        obtain ⟨hp, hs⟩ | ⟨hp, code, hc, hs⟩ := execBuild_cases s
        · exact ⟨_, hs, .buildStarts he ho hp⟩
        · exact ⟨_, hs, .buildFails code he ho hp hc⟩
      | qsum => exact query (by simp [isQuery])
      | qavg => exact query (by simp [isQuery])
      | qnzc => exact query (by simp [isQuery])
      | qnzavg => exact query (by simp [isQuery])

/-- The inversion of the engine's step. -/
theorem engineStep_cases {s t : State} (h : s.eng ≠ .idle) (ht : engineStep s = .next t) : EngineEffect s t := by
  obtain ⟨u, hu, he⟩ := engineStep_effect h
  rw [hu] at ht
  cases ht
  exact he

theorem engineStep_idle {s : State} (h : s.eng = .idle) : engineStep s = .next s := by
  simp only [engineStep, h]

/-! ### The whole -/

/-- What one turn does to everything but the host's program, its reads and the turns to come. -/
inductive Effect (s : State) : State → Prop where
  | stay : Effect s s
  | operands (o : Operands) : s.rst = false → Effect s { s with ops := o }
  | ctrl (v : Word) : s.rst = false → Effect s (writeCtrl v s)
  | status (v : Word) : s.rst = false → Effect s (writeStatus v s)
  | accepted (w : Word) : s.rst = false → s.eng = .idle → Effect s (accept w s)
  | dropped : s.rst = false → s.eng ≠ .idle → Effect s { s with drop := true }
  | gridWrite (a : Word) (b : Byte) : Effect s (gridWriteTurn a b s)
  | reset (level : Bool) : Effect s (resetPsa level s)
  | engine (t : State) : s.rst = false → s.eng ≠ .idle → EngineEffect s t → Effect s t

/-- A write to the register window, by what it changes (R20, R29, R84, R85). -/
theorem writeOffset_effect {s : State} (h : s.rst = false) (off : BitVec 8) (v : Word) :
    Effect s (writeOffset off v s) := by
  unfold writeOffset
  split
  · rename_i r _
    cases r <;> first
      | exact .stay
      | exact .operands _ h
      | exact .ctrl v h
      | exact .status v h
      | skip
    simp only [writeReg, writeCmd]
    split
    · exact .accepted v h ‹_›
    · exact .dropped h ‹_›
  · exact .stay

theorem hostTurn_effect {s t : State} (h : hostTurn s = .next t) :
    ∃ hs rd, Effect { s with host := hs, reads := rd } t := by
  unfold hostTurn at h
  split at h
  · cases h
    exact ⟨s.host, s.reads, .stay⟩
  · rename_i a v rest _
    unfold hostWrite at h
    split at h
    · cases h
      refine ⟨rest, s.reads, ?_⟩
      split
      · exact .stay
      · rename_i hr
        exact writeOffset_effect (by simpa using hr) a.off v
    · cases h
  · rename_i a rest _
    unfold hostRead at h
    split at h
    · cases h
      exact ⟨rest, _, .stay⟩
    · cases h
  · cases h
    exact ⟨_, _, .stay⟩

theorem engineTurn_effect {s t : State} (h : engineTurn s = .next t) : Effect s t := by
  unfold engineTurn at h
  split at h
  · cases h
    exact .stay
  · rename_i hr
    by_cases he : s.eng = .idle
    · rw [engineStep_idle he] at h
      cases h
      exact .stay
    · exact .engine t (by simpa using hr) he (engineStep_cases he h)

theorem takeTurn_effect {turn : Turn} {s t : State} (h : takeTurn turn s = .next t) :
    ∃ hs rd, Effect { s with host := hs, reads := rd } t := by
  cases turn with
  | host => exact hostTurn_effect h
  | engine => exact ⟨s.host, s.reads, engineTurn_effect h⟩
  | gridWrite a b =>
    cases h
    exact ⟨s.host, s.reads, .gridWrite a b⟩
  | setReset level =>
    cases h
    exact ⟨s.host, s.reads, .reset level⟩

/-- The inversion of the step: the host's program, its reads and the turns to come change as they may, and then one
effect takes place. -/
theorem step_effect {s t : State} (h : step s = .next t) :
    s.cfg.legal = true ∧ ∃ hs rd sc, Effect { s with host := hs, reads := rd, sched := sc } t := by
  unfold step at h
  split at h
  · refine ⟨‹_›, ?_⟩
    split at h
    · rename_i turn rest _
      obtain ⟨hs, rd, he⟩ := takeTurn_effect h
      exact ⟨hs, rd, rest, he⟩
    · obtain ⟨hs, rd, he⟩ := takeTurn_effect h
      exact ⟨hs, rd, s.sched, he⟩
  · cases h

end Sys2Proof.Machine
end

