-- ==== Sys2Proof/Laws/Query.lean ====
section
/-! SUPPORT. The query step against the geometry of Safety.lean (min and max), and its three ways to end, said once. -/

namespace Sys2Proof.Machine

open Sys2Proof

theorem canonRect_eq (o : Operands) :
    canonRect o = { a0 := min o.qx0.toInt o.qx1.toInt, b0 := min o.qy0.toInt o.qy1.toInt,
                    a1 := max o.qx0.toInt o.qx1.toInt, b1 := max o.qy0.toInt o.qy1.toInt } := by
  simp only [canonRect, sint32, Rect.mk.injEq]
  refine ⟨?_, ?_, ?_, ?_⟩ <;> split <;> omega

theorem queryOor_iff (s : State) : s.queryOor = true ↔ s.rectOut := by
  simp only [State.queryOor, outOfRange, State.queryRect, canonRect_eq, State.tableWidth, State.tableHeight,
    State.rectOut, spanOut, Bool.or_eq_true, decide_eq_true_eq]
  omega

theorem queryOor_false_iff (s : State) : s.queryOor = false ↔ ¬s.rectOut := by
  rw [← queryOor_iff, Bool.not_eq_true]

theorem queryClamp_eq (s : State) :
    s.queryClamp = { lowX := s.loX, highX := s.hiX, lowY := s.loY, highY := s.hiY } := by
  simp only [State.queryClamp, clampRect, State.queryRect, canonRect_eq, State.tableWidth, State.tableHeight,
    State.loX, State.hiX, State.loY, State.hiY, spanLow, spanHigh]

theorem queryClipped_iff (s : State) : s.queryClipped = true ↔ s.rectClipped := by
  simp only [State.queryClipped, clippedRect, State.queryRect, canonRect_eq, State.tableWidth, State.tableHeight,
    State.rectClipped, spanClipped, Bool.or_eq_true, decide_eq_true_eq]
  omega

theorem elementCount_eq (s : State) : elementCount s.queryClamp = s.footprint := by
  rw [queryClamp_eq]
  rfl

theorem lookup_eq (s : State) (cell : Nat → Nat → Word) : lookup cell s.queryClamp = s.fourTerms cell := by
  rw [queryClamp_eq]
  rfl

/-- R114: the upper indices never pass the table. -/
theorem hiX_le (s : State) : s.hiX ≤ s.builtWidth.toNat := by
  unfold State.hiX spanHigh
  omega

theorem hiY_le (s : State) : s.hiY ≤ s.builtHeight.toNat := by
  unfold State.hiY spanHigh
  omega

/-- R114: "When not OOR, 0 ≤ lowX < highX ≤ W"; the lower bound needs a table with a column. -/
theorem loX_lt_hiX {s : State} (h : ¬s.rectOut) (hw : 1 ≤ s.builtWidth.toNat) : s.loX < s.hiX := by
  unfold State.rectOut spanOut at h
  unfold State.loX State.hiX spanLow spanHigh
  omega

theorem loY_lt_hiY {s : State} (h : ¬s.rectOut) (hh : 1 ≤ s.builtHeight.toNat) : s.loY < s.hiY := by
  unfold State.rectOut spanOut at h
  unfold State.loY State.hiY spanLow spanHigh
  omega

theorem loX_le_hiX {s : State} (h : ¬s.rectOut) : s.loX ≤ s.hiX := by
  unfold State.rectOut spanOut at h
  unfold State.loX State.hiX spanLow spanHigh
  omega

theorem loY_le_hiY {s : State} (h : ¬s.rectOut) : s.loY ≤ s.hiY := by
  unfold State.rectOut spanOut at h
  unfold State.loY State.hiY spanLow spanHigh
  omega

/-! ### The three ways a query ends -/

theorem runQuery_noTable {s : State} (h : s.valid = false) (own : Clamped → OwnResults) :
    runQuery own s = .next (complete .noTable { s with res := Results.zero }) := by
  simp [runQuery, h]

theorem runQuery_out {s : State} (h : s.valid = true) (ho : s.rectOut) (own : Clamped → OwnResults) :
    runQuery own s = .next (complete .ok { s with res := oorResults }) := by
  simp [runQuery, h, (queryOor_iff s).mpr ho]

theorem runQuery_in {s : State} (h : s.valid = true) (ho : ¬s.rectOut) (own : Clamped → OwnResults) :
    runQuery own s =
      .next (complete .ok { s with res := inRangeResults (own s.queryClamp) s.queryClamp s.queryClipped }) := by
  simp [runQuery, h, (queryOor_false_iff s).mpr ho]

/-- The frame of a query, whatever it writes into the result registers. -/
theorem keepsBesideResults_complete (s : State) (code : Completion) (r : Results) :
    KeepsBesideResults s (complete code { s with res := r }) := by
  constructor <;> first | rfl | exact fun _ => rfl

theorem keepsBesideStatus_complete (s : State) (code : Completion) : KeepsBesideStatus s (complete code s) :=
  ⟨by constructor <;> first | rfl | exact fun _ => rfl, rfl⟩

theorem completedWith_complete (code : Completion) (s : State) : CompletedWith code (complete code s) :=
  ⟨rfl, rfl, rfl⟩

/-- The registers every in-range query writes the same way (R121). -/
theorem commonResults_inRange (s : State) (own : OwnResults) :
    CommonResults s (inRangeResults own s.queryClamp s.queryClipped) := by
  have hx := hiX_le s
  have hy := hiY_le s
  have bx := s.builtWidth.isLt
  have bz := s.builtHeight.isLt
  have lx : s.loX < 2 ^ 32 := by
    have := BitVec.toInt_lt (x := s.snap.ops.qx0)
    unfold State.loX spanLow
    omega
  have ly : s.loY < 2 ^ 32 := by
    have := BitVec.toInt_lt (x := s.snap.ops.qy0)
    unfold State.loY spanLow
    omega
  constructor
  · simp only [inRangeResults, elementCount_eq]
  · simp only [inRangeResults, queryClamp_eq, BitVec.toNat_ofNat]
    omega
  · simp only [inRangeResults, queryClamp_eq, BitVec.toNat_ofNat]
    omega
  · simp only [inRangeResults, queryClamp_eq, BitVec.toNat_ofNat]
    omega
  · simp only [inRangeResults, queryClamp_eq, BitVec.toNat_ofNat]
    omega
  · rfl
  · exact queryClipped_iff s

theorem average_inRange (own : OwnResults) (c : Clamped) (b : Bool) :
    (inRangeResults own c b).average = own.avg := by
  simp only [Results.average, inRangeResults]
  ext i hi
  simp only [BitVec.getElem_append, BitVec.getElem_extractLsb']
  split
  · simp [BitVec.getLsbD_eq_getElem hi]
  · rename_i h
    have : 32 + (i - 32) = i := by omega
    simp only [this, BitVec.getLsbD_eq_getElem hi]

end Sys2Proof.Machine
end

