-- ==== Sys2Proof/Laws/Sums.lean ====
section
/-! SUPPORT. Sums over rectangles of a grid: the recurrence BUILD fills its tables by, the inclusion-exclusion a query
looks up with, bounds, and what changing one cell changes. -/

namespace Sys2Proof.Machine

open Sys2Proof

@[simp] theorem rectSum_zero_width (f : Nat → Nat → Nat) (x y0 y1 : Nat) : rectSum f x x y0 y1 = 0 := by
  simp [rectSum]

@[simp] theorem rectSum_zero_height (f : Nat → Nat → Nat) (x0 x1 y : Nat) : rectSum f x0 x1 y y = 0 := by
  simp [rectSum]

/-- Columns split. -/
theorem rectSum_cols (f : Nat → Nat → Nat) {x0 x1 x2 : Nat} (h1 : x0 ≤ x1) (h2 : x1 ≤ x2) (y0 y1 : Nat) :
    rectSum f x0 x1 y0 y1 + rectSum f x1 x2 y0 y1 = rectSum f x0 x2 y0 y1 :=
  Finset.sum_Ico_consecutive _ h1 h2

/-- Rows split. -/
theorem rectSum_rows (f : Nat → Nat → Nat) (x0 x1 : Nat) {y0 y1 y2 : Nat} (h1 : y0 ≤ y1) (h2 : y1 ≤ y2) :
    rectSum f x0 x1 y0 y1 + rectSum f x0 x1 y1 y2 = rectSum f x0 x1 y0 y2 := by
  simp only [rectSum, ← Finset.sum_add_distrib]
  exact Finset.sum_congr rfl fun i _ => Finset.sum_Ico_consecutive _ h1 h2

theorem rectSum_cell (f : Nat → Nat → Nat) (x y : Nat) : rectSum f x (x + 1) y (y + 1) = f x y := by
  simp [rectSum]

/-- The recurrence of R101 and R102, with the subtraction moved to the other side. -/
theorem prefix_recurrence (f : Nat → Nat → Nat) (x y : Nat) :
    rectSum f 0 (x + 1) 0 (y + 1) + rectSum f 0 x 0 y =
      f x y + rectSum f 0 x 0 (y + 1) + rectSum f 0 (x + 1) 0 y := by
  have a := rectSum_cols f (Nat.zero_le x) (Nat.le_add_right x 1) 0 (y + 1)
  have b := rectSum_cols f (Nat.zero_le x) (Nat.le_add_right x 1) 0 y
  have c := rectSum_rows f x (x + 1) (Nat.zero_le y) (Nat.le_add_right y 1)
  have d := rectSum_cell f x y
  omega

/-- The lookup's inclusion-exclusion (R116, R117), with the subtractions moved to the other side. -/
theorem inclusion_exclusion (f : Nat → Nat → Nat) {x0 x1 y0 y1 : Nat} (hx : x0 ≤ x1) (hy : y0 ≤ y1) :
    rectSum f 0 x1 0 y1 + rectSum f 0 x0 0 y0 =
      rectSum f x0 x1 y0 y1 + rectSum f 0 x0 0 y1 + rectSum f 0 x1 0 y0 := by
  have a := rectSum_cols f (Nat.zero_le x0) hx 0 y1
  have b := rectSum_cols f (Nat.zero_le x0) hx 0 y0
  have c := rectSum_rows f x0 x1 (Nat.zero_le y0) hy
  omega

/-- A bound on each cell bounds the sum. -/
theorem rectSum_le {f : Nat → Nat → Nat} {c : Nat} (h : ∀ x y, f x y ≤ c) (x0 x1 y0 y1 : Nat) :
    rectSum f x0 x1 y0 y1 ≤ c * ((x1 - x0) * (y1 - y0)) := by
  have inner : ∀ i ∈ Finset.Ico x0 x1, ∑ j ∈ Finset.Ico y0 y1, f i j ≤ (y1 - y0) * c := fun i _ => by
    have := Finset.sum_le_card_nsmul (Finset.Ico y0 y1) (f i) c fun j _ => h i j
    simpa using this
  have outer := Finset.sum_le_card_nsmul (Finset.Ico x0 x1) _ _ inner
  simp only [Nat.card_Ico, smul_eq_mul] at outer
  calc rectSum f x0 x1 y0 y1 ≤ (x1 - x0) * ((y1 - y0) * c) := outer
    _ = c * ((x1 - x0) * (y1 - y0)) := by ring

/-- Prefix sums grow with either index. -/
theorem prefix_mono (f : Nat → Nat → Nat) {x x' y y' : Nat} (hx : x ≤ x') (hy : y ≤ y') :
    rectSum f 0 x 0 y ≤ rectSum f 0 x' 0 y' := by
  have a := rectSum_cols f (Nat.zero_le x) hx 0 y
  have b := rectSum_rows f 0 x' (Nat.zero_le y) hy
  omega

/-- A sum depends on the cells of its rectangle only. -/
theorem rectSum_congr {f g : Nat → Nat → Nat} {x0 x1 y0 y1 : Nat}
    (h : ∀ i j, x0 ≤ i → i < x1 → y0 ≤ j → j < y1 → f i j = g i j) : rectSum f x0 x1 y0 y1 = rectSum g x0 x1 y0 y1 := by
  refine Finset.sum_congr rfl fun i hi => Finset.sum_congr rfl fun j hj => ?_
  rw [Finset.mem_Ico] at hi hj
  exact h i j hi.1 hi.2 hj.1 hj.2

theorem valueOf_le (g : Grid) (x y : Nat) : valueOf g x y ≤ 255 := by
  have := (g x y).isLt
  unfold valueOf
  omega

theorem nonZeroOf_le (g : Grid) (x y : Nat) : nonZeroOf g x y ≤ 1 := by
  unfold nonZeroOf
  split <;> omega

/-- R8: within the parameters no prefix sum of values reaches 2^32. -/
theorem valueSum_lt (g : Grid) {x0 x1 y0 y1 : Nat} (hx : x1 - x0 ≤ 4104) (hy : y1 - y0 ≤ 4104) :
    rectSum (valueOf g) x0 x1 y0 y1 < 2 ^ 32 := by
  have h := rectSum_le (valueOf_le g) x0 x1 y0 y1
  have : (x1 - x0) * (y1 - y0) ≤ 4104 * 4104 := Nat.mul_le_mul hx hy
  omega

theorem nonZeroSum_lt (g : Grid) {x0 x1 y0 y1 : Nat} (hx : x1 - x0 ≤ 4104) (hy : y1 - y0 ≤ 4104) :
    rectSum (nonZeroOf g) x0 x1 y0 y1 < 2 ^ 32 := by
  have h := rectSum_le (nonZeroOf_le g) x0 x1 y0 y1
  have : (x1 - x0) * (y1 - y0) ≤ 4104 * 4104 := Nat.mul_le_mul hx hy
  omega

/-- Four words whose values satisfy an exact equation give the exact fourth one modulo 2^32 (R104, R118). -/
theorem word_of_exact {a b c d : Word} {n : Nat} (hn : n < 2 ^ 32) (h : n + d.toNat = a.toNat + b.toNat + c.toNat) :
    (a + b + c - d).toNat = n := by
  simp only [BitVec.toNat_sub, BitVec.toNat_add]
  have := d.isLt
  omega

/-- The same for the order of LOOKUP: two added, two subtracted. -/
theorem word_of_lookup {a b c d : Word} {n : Nat} (hn : n < 2 ^ 32)
    (h : a.toNat + b.toNat = n + c.toNat + d.toNat) : (a + b - c - d).toNat = n := by
  simp only [BitVec.toNat_sub, BitVec.toNat_add]
  have := c.isLt
  have := d.isLt
  omega

end Sys2Proof.Machine
end

