-- ==== Sys2Proof/Laws/Build.lean ====
section
/-! SUPPORT. The steps of a BUILD: what each keeps, and that the start step and every cell step leave tables that are exact
up to the write frontier (R49, R104). -/

namespace Sys2Proof.Machine

open Sys2Proof

/-! ### What the steps keep -/

theorem keepsBesideBuild_start (w h : Nat) (s : State) : KeepsBesideBuild s (buildStart w h s) := by
  constructor <;> first | rfl | exact fun _ => rfl

theorem keepsBesideBuild_cell (s : State) : KeepsBesideBuild s (buildCell s) := by
  constructor <;> first | rfl | exact fun _ => rfl

theorem keepsBesideBuild_finish (s : State) : KeepsBesideBuild s (buildFinish s) := by
  constructor <;> first | rfl | exact fun _ => rfl

theorem keepsBesideBuild_complete (code : Completion) (s : State) : KeepsBesideBuild s (complete code s) := by
  constructor <;> first | rfl | exact fun _ => rfl

/-- One fact about two BUILD steps in a row. -/
theorem KeepsBesideBuild.trans {s t u : State} (a : KeepsBesideBuild s t) (b : KeepsBesideBuild t u) :
    KeepsBesideBuild s u where
  cfg := b.cfg.trans a.cfg
  ie := b.ie.trans a.ie
  drop := b.drop.trans a.drop
  ops := b.ops.trans a.ops
  res := b.res.trans a.res
  snap := b.snap.trans a.snap
  grid := fun x => (b.grid x).trans (a.grid x)
  memory := b.memory.trans a.memory
  rst := b.rst.trans a.rst
  host := b.host.trans a.host
  sched := b.sched.trans a.sched
  reads := b.reads.trans a.reads

theorem buildStep_cell {s : State} (h : s.cy ≠ s.runHeight) : buildStep s = .next (buildCell s) := by
  unfold buildStep
  rw [if_neg h]

theorem buildStep_finish {s : State} (h : s.cy = s.runHeight) : buildStep s = .next (buildFinish s) := by
  unfold buildStep
  rw [if_pos h]

theorem runWidth_lt (s : State) : s.runWidth < 2 ^ 32 := by
  have := BitVec.toInt_lt (x := s.snap.ops.width)
  rw [runWidth_eq]
  omega

theorem runHeight_lt (s : State) : s.runHeight < 2 ^ 32 := by
  have := BitVec.toInt_lt (x := s.snap.ops.height)
  rw [runHeight_eq]
  omega

/-- The run dimensions depend on the snapshot alone. -/
theorem KeepsBesideBuild.runWidth {s t : State} (h : KeepsBesideBuild s t) : t.runWidth = s.runWidth := by
  rw [runWidth_eq, runWidth_eq, h.snap]

theorem KeepsBesideBuild.runHeight {s t : State} (h : KeepsBesideBuild s t) : t.runHeight = s.runHeight := by
  rw [runHeight_eq, runHeight_eq, h.snap]

/-! ### The cursor and the write frontier -/

theorem cursor_start {s : State} (h : s.buildPasses) : CursorInRange (buildStart s.runWidth s.runHeight s) := by
  have := buildPasses_dims h
  exact .inl ⟨by rw [buildStart_cx, (keepsBesideBuild_start _ _ s).runWidth]; omega,
    by rw [buildStart_cy, (keepsBesideBuild_start _ _ s).runHeight]; omega⟩

/-- A cursor that is not past the last row is inside the grid. -/
theorem cursor_inside {s : State} (h : CursorInRange s) (hy : s.cy ≠ s.runHeight) :
    s.cx < s.runWidth ∧ s.cy < s.runHeight := by
  rcases h with h | h
  · exact h
  · exact absurd h.2 hy

theorem cursor_cell {s : State} (hx : s.cx < s.runWidth) (hy : s.cy < s.runHeight) : CursorInRange (buildCell s) := by
  unfold CursorInRange
  rw [(keepsBesideBuild_cell s).runWidth, (keepsBesideBuild_cell s).runHeight, buildCell_cx, buildCell_cy]
  split
  · by_cases h : s.cy + 1 = s.runHeight
    · exact .inr ⟨rfl, h⟩
    · exact .inl ⟨by omega, by omega⟩
  · exact .inl ⟨by omega, by omega⟩

/-- A cell step makes exactly its own table cell a written one. -/
theorem cellWritten_cell {w h cx cy : Nat} (hx : cx < w) (hy : cy < h) (x y : Nat) :
    CellWritten w h (if cx + 1 = w then 0 else cx + 1) (if cx + 1 = w then cy + 1 else cy) x y ↔
      CellWritten w h cx cy x y ∨ (x = cx + 1 ∧ y = cy + 1) := by
  unfold CellWritten Visited
  split <;> omega

/-- The cell a cell step writes had not been written. -/
theorem not_cellWritten_cursor (w h cx cy : Nat) : ¬CellWritten w h cx cy (cx + 1) (cy + 1) := by
  unfold CellWritten Visited
  omega

/-- The three neighbours a cell step reads had been. -/
theorem cellWritten_neighbours {w h cx cy : Nat} (hx : cx < w) (hy : cy < h) :
    CellWritten w h cx cy cx (cy + 1) ∧ CellWritten w h cx cy (cx + 1) cy ∧ CellWritten w h cx cy cx cy := by
  unfold CellWritten Visited
  omega

/-- Past the last row every cell of the build has been written. -/
theorem cellWritten_all {w h x y : Nat} (hx : x ≤ w) (hy : y ≤ h) : CellWritten w h 0 h x y := by
  unfold CellWritten Visited
  omega

/-- At the start only the border has been. -/
theorem cellWritten_start (w h x y : Nat) : CellWritten w h 0 0 x y ↔ (y = 0 ∧ x ≤ w) ∨ (x = 0 ∧ y ≤ h) := by
  unfold CellWritten Visited
  omega

/-! ### The tables up to the frontier -/

/-- A cell that holds a prefix sum reads as it, free value or not. -/
theorem vtCell_holds {s : State} {f : Nat → Nat → Nat} {x y : Nat} (h : HoldsPrefix s.vt f x y) :
    (vtCell s x y).toNat = rectSum f 0 x 0 y := by
  obtain ⟨v, hv, hn⟩ := h
  rw [vtCell, hv]
  exact hn

theorem ntCell_holds {s : State} {f : Nat → Nat → Nat} {x y : Nat} (h : HoldsPrefix s.nt f x y) :
    (ntCell s x y).toNat = rectSum f 0 x 0 y := by
  obtain ⟨v, hv, hn⟩ := h
  rw [ntCell, hv]
  exact hn

theorem holdsPrefix_border (f : Nat → Nat → Nat) {w h x y : Nat} (hb : (y = 0 ∧ x ≤ w) ∨ (x = 0 ∧ y ≤ h)) :
    HoldsPrefix (Table.border w h) f x y := by
  refine ⟨0, by rw [Table.read_border, if_pos hb], ?_⟩
  rcases hb with ⟨rfl, -⟩ | ⟨rfl, -⟩ <;> simp

/-- The start step leaves tables that are exact up to the frontier, for any grid. -/
theorem partialTables_start (s : State) (g : Grid) : PartialTables (buildStart s.runWidth s.runHeight s) g := by
  intro x y
  rw [(keepsBesideBuild_start _ _ s).runWidth, (keepsBesideBuild_start _ _ s).runHeight]
  simp only [buildStart_cx, buildStart_cy, buildStart_vt, buildStart_nt, cellWritten_start]
  refine ⟨fun hb => ⟨holdsPrefix_border _ hb, holdsPrefix_border _ hb⟩, fun hb => ?_⟩
  rw [Table.read_border, if_neg hb]
  exact ⟨rfl, rfl⟩

/-- A prefix sum over visited cells does not see the cell at the cursor. -/
theorem prefix_update {f f' : Nat → Nat → Nat} {w h cx cy x y : Nat}
    (hf : ∀ i j, ¬(i = cx ∧ j = cy) → f' i j = f i j) (hw : CellWritten w h cx cy x y) :
    rectSum f' 0 x 0 y = rectSum f 0 x 0 y := by
  refine rectSum_congr fun i j _ hi _ hj => hf i j ?_
  unfold CellWritten Visited at hw
  omega

/-- A grid with the byte of one cell replaced. -/
def setCell (g : Grid) (cx cy : Nat) (v : Byte) : Grid := fun x y => if x = cx ∧ y = cy then v else g x y

theorem valueOf_setCell_other (g : Grid) (cx cy : Nat) (v : Byte) (i j : Nat) (h : ¬(i = cx ∧ j = cy)) :
    valueOf (setCell g cx cy v) i j = valueOf g i j := by
  simp [valueOf, setCell, h]

theorem nonZeroOf_setCell_other (g : Grid) (cx cy : Nat) (v : Byte) (i j : Nat) (h : ¬(i = cx ∧ j = cy)) :
    nonZeroOf (setCell g cx cy v) i j = nonZeroOf g i j := by
  simp [nonZeroOf, setCell, h]

theorem toNat_setWidth_byte (v : Byte) : (v.setWidth 32).toNat = v.toNat := by
  have := v.isLt
  simp only [BitVec.toNat_setWidth]
  omega

theorem toNat_nz (v : Byte) : (nz v).toNat = if v = 0 then 0 else 1 := by
  unfold nz
  split <;> rfl

/-- The recurrence on exact neighbours gives the exact prefix sum (R104). -/
theorem recurrence_exact {f : Nat → Nat → Nat} {cell : Nat → Nat → Word} {v : Word} {cx cy : Nat}
    (hv : v.toNat = f cx cy) (h01 : (cell cx (cy + 1)).toNat = rectSum f 0 cx 0 (cy + 1))
    (h10 : (cell (cx + 1) cy).toNat = rectSum f 0 (cx + 1) 0 cy) (h00 : (cell cx cy).toNat = rectSum f 0 cx 0 cy)
    (hlt : rectSum f 0 (cx + 1) 0 (cy + 1) < 2 ^ 32) :
    (recurrence v cell cx cy).toNat = rectSum f 0 (cx + 1) 0 (cy + 1) := by
  refine word_of_exact hlt ?_
  rw [hv, h01, h10, h00]
  exact prefix_recurrence f cx cy

/-- A cell step keeps the tables exact up to the frontier: of the grid with the byte it read at its cell. -/
theorem partialTables_cell {s : State} {g : Grid} (hx : s.cx < s.runWidth) (hy : s.cy < s.runHeight)
    (hw : s.runWidth ≤ 4104) (hh : s.runHeight ≤ 4104) (hp : PartialTables s g) :
    PartialTables (buildCell s) (setCell g s.cx s.cy (cellByte s)) := by
  obtain ⟨w01, w10, w00⟩ := cellWritten_neighbours hx hy
  have at_cursor : setCell g s.cx s.cy (cellByte s) s.cx s.cy = cellByte s := by simp [setCell]
  intro x y
  rw [(keepsBesideBuild_cell s).runWidth, (keepsBesideBuild_cell s).runHeight, buildCell_cx, buildCell_cy,
    cellWritten_cell hx hy, buildCell_vt, buildCell_nt]
  by_cases hc : x = s.cx + 1 ∧ y = s.cy + 1
  · obtain ⟨rfl, rfl⟩ := hc
    refine ⟨fun _ => ⟨⟨_, Table.read_write_same _ _ _ _, ?_⟩, _, Table.read_write_same _ _ _ _, ?_⟩, fun h => ?_⟩
    · refine recurrence_exact ?_ ?_ ?_ ?_ (valueSum_lt _ (by omega) (by omega))
      · rw [toNat_setWidth_byte, valueOf, at_cursor]
      · rw [vtCell_holds ((hp _ _).1 w01).1, prefix_update (valueOf_setCell_other g _ _ _) w01]
      · rw [vtCell_holds ((hp _ _).1 w10).1, prefix_update (valueOf_setCell_other g _ _ _) w10]
      · rw [vtCell_holds ((hp _ _).1 w00).1, prefix_update (valueOf_setCell_other g _ _ _) w00]
    · refine recurrence_exact ?_ ?_ ?_ ?_ (nonZeroSum_lt _ (by omega) (by omega))
      · rw [toNat_nz, nonZeroOf, at_cursor]
      · rw [ntCell_holds ((hp _ _).1 w01).2, prefix_update (nonZeroOf_setCell_other g _ _ _) w01]
      · rw [ntCell_holds ((hp _ _).1 w10).2, prefix_update (nonZeroOf_setCell_other g _ _ _) w10]
      · rw [ntCell_holds ((hp _ _).1 w00).2, prefix_update (nonZeroOf_setCell_other g _ _ _) w00]
    · exact absurd (.inr ⟨rfl, rfl⟩) h
  · simp only [HoldsPrefix, Table.read_write_other _ _ hc]
    refine ⟨fun h => ?_, fun h => (hp x y).2 fun hw => h (.inl hw)⟩
    have hwr : CellWritten s.runWidth s.runHeight s.cx s.cy x y := h.resolve_right hc
    rw [prefix_update (valueOf_setCell_other g _ _ _) hwr, prefix_update (nonZeroOf_setCell_other g _ _ _) hwr]
    exact (hp x y).1 hwr

/-- Past the last row the tables are exact everywhere. -/
theorem tablesOf_finish {s : State} {g : Grid} (hx : s.cx = 0) (hy : s.cy = s.runHeight) (hp : PartialTables s g) :
    TablesOf s g s.runWidth s.runHeight := by
  intro x hxw y hyh
  refine (hp x y).1 ?_
  rw [hx, hy]
  exact cellWritten_all hxw hyh

theorem buildFinish_width (s : State) : (buildFinish s).builtWidth.toNat = s.runWidth := by
  rw [buildFinish_builtWidth, BitVec.toNat_ofNat]
  exact Nat.mod_eq_of_lt (runWidth_lt s)

theorem buildFinish_height (s : State) : (buildFinish s).builtHeight.toNat = s.runHeight := by
  rw [buildFinish_builtHeight, BitVec.toNat_ofNat]
  exact Nat.mod_eq_of_lt (runHeight_lt s)

end Sys2Proof.Machine
end

