-- ==== Sys2Proof/Laws/Flags.lean ====
section
/-! SUPPORT. The bits of the flag words, one lemma per word. -/

namespace Sys2Proof.Machine

open Sys2Proof

/-- The bits of a word laid out as STATUS is (R29). -/
theorem statusLayout_bit (c : Completion) (drop done valid busy : Bool) (k : Fin 32) :
    BitVec.getLsbD (w := 32)
        (0#24 ++ c.code ++ BitVec.ofBool drop ++ BitVec.ofBool done ++ BitVec.ofBool valid ++ BitVec.ofBool busy) k =
      if k.val = 0 then busy else if k.val = 1 then valid else if k.val = 2 then done else if k.val = 3 then drop
      else if k.val < 8 then c.code.getLsbD (k.val - 4) else false := by
  revert k
  cases c <;> cases drop <;> cases done <;> cases valid <;> cases busy <;> decide

/-- STATUS bit by bit, below 32. -/
theorem statusWord_bit (s : State) {k : Nat} (h : k < 32) :
    (statusWord s).getLsbD k =
      if k = 0 then s.busy else if k = 1 then s.valid else if k = 2 then s.done else if k = 3 then s.drop
      else if k < 8 then s.err.code.getLsbD (k - 4) else false :=
  statusLayout_bit s.err s.drop s.done s.valid s.busy ⟨k, h⟩

@[simp] theorem statusWord_busy (s : State) : (statusWord s).getLsbD 0 = s.busy := statusWord_bit s (by decide)

@[simp] theorem statusWord_valid (s : State) : (statusWord s).getLsbD 1 = s.valid := statusWord_bit s (by decide)

@[simp] theorem statusWord_done (s : State) : (statusWord s).getLsbD 2 = s.done := statusWord_bit s (by decide)

@[simp] theorem statusWord_drop (s : State) : (statusWord s).getLsbD 3 = s.drop := statusWord_bit s (by decide)

/-- The ERR field of a word laid out as STATUS is. -/
theorem statusLayout_err (c : Completion) (drop done valid busy : Bool) :
    BitVec.extractLsb' (n := 32) 4 4
        (0#24 ++ c.code ++ BitVec.ofBool drop ++ BitVec.ofBool done ++ BitVec.ofBool valid ++ BitVec.ofBool busy) =
      c.code := by
  cases c <;> cases drop <;> cases done <;> cases valid <;> cases busy <;> decide

@[simp] theorem statusWord_err (s : State) : (statusWord s).extractLsb' 4 4 = s.err.code :=
  statusLayout_err s.err s.drop s.done s.valid s.busy

/-- RES_FLAGS of a query that is out of range, clipped, or neither (R40). -/
theorem resFlagsWord_eq (r : Results) :
    resFlagsWord r = if r.clipped then (if r.oor then 3 else 2) else if r.oor then 1 else 0 := by
  unfold resFlagsWord
  cases r.clipped <;> cases r.oor <;> decide

@[simp] theorem ctrlWord_bit (s : State) : (ctrlWord s).getLsbD 0 = s.ie := by
  unfold ctrlWord
  cases s.ie <;> decide

theorem busy_eq_false_iff (s : State) : s.busy = false ↔ s.eng = .idle := by
  simp [State.busy]

theorem busy_eq_true_iff (s : State) : s.busy = true ↔ s.eng ≠ .idle := by
  simp [State.busy]

end Sys2Proof.Machine
end

