-- ==== Sys2Proof/Laws/Float.lean ====
section
/-! SUPPORT. Rounding to the nearest integer, the range in which fdiv64 rounds, and the value of the pattern it builds. -/

namespace Sys2Proof.Machine

open Sys2Proof

/-! ### The nearest integer -/

/-- `divNearestEven` is within half of the quotient, and on a tie it is even. -/
theorem divNearestEven_near (n : Nat) {d : Nat} (hd : 0 < d) :
    2 * n ≤ (2 * divNearestEven n d + 1) * d ∧ 2 * divNearestEven n d * d ≤ 2 * n + d ∧
      (2 * n = (2 * divNearestEven n d + 1) * d → divNearestEven n d % 2 = 0) ∧
      (2 * divNearestEven n d * d = 2 * n + d → divNearestEven n d % 2 = 0) := by
  have hn : n = d * (n / d) + n % d := (Nat.div_add_mod n d).symm
  have hr : n % d < d := Nat.mod_lt n hd
  simp only [divNearestEven]
  generalize n / d = q at hn ⊢
  generalize n % d = r at hn hr ⊢
  subst hn
  split
  · refine ⟨?_, ?_, ?_, ?_⟩
    · nlinarith
    · have : d ≤ 2 * r := by omega
      nlinarith
    · intro h
      nlinarith
    · intro h
      have : 2 * r = d := by nlinarith
      omega
  · have : 2 * r ≤ d := by omega
    refine ⟨?_, ?_, ?_, ?_⟩
    · nlinarith
    · nlinarith
    · intro h
      have : 2 * r = d := by nlinarith
      omega
    · intro h
      nlinarith

/-- It lies between integers that bound the quotient. -/
theorem divNearestEven_bounds {n d a b : Nat} (hd : 0 < d) (ha : a * d ≤ n) (hb : n < b * d) :
    a ≤ divNearestEven n d ∧ divNearestEven n d ≤ b := by
  have h1 : a ≤ n / d := (Nat.le_div_iff_mul_le hd).mpr ha
  have h2 : n / d < b := (Nat.div_lt_iff_lt_mul hd).mpr hb
  simp only [divNearestEven]
  split <;> omega

/-- On a multiple of the divisor it is the quotient. -/
theorem divNearestEven_exact (q : Nat) {d : Nat} (hd : 0 < d) : divNearestEven (q * d) d = q := by
  simp only [divNearestEven, Nat.mul_mod_left, Nat.mul_div_left q hd]
  rw [if_neg (by omega)]

/-! ### The binade -/

/-- `quotientLog` names the binade of the quotient. -/
theorem quotientLog_spec {s d : Nat} (hs : 0 < s) (hd : 0 < d) (hd' : d < 2 ^ 64) :
    2 ^ quotientLog s d * d ≤ s * 2 ^ 64 ∧ s * 2 ^ 64 < 2 ^ (quotientLog s d + 1) * d := by
  have hne : s * 2 ^ 64 / d ≠ 0 := by
    have : 1 ≤ s * 2 ^ 64 / d := (Nat.le_div_iff_mul_le hd).mpr (by omega)
    omega
  exact ⟨(Nat.le_div_iff_mul_le hd).mp (Nat.log2_self_le hne), (Nat.div_lt_iff_lt_mul hd).mp Nat.lt_log2_self⟩

/-- For R126's operands, and for larger divisors, it lies between 1 and 95. -/
theorem quotientLog_range {s d : Nat} (hs : 0 < s) (hs' : s < 2 ^ 32) (hd : 0 < d) (hd' : d < 2 ^ 63) :
    1 ≤ quotientLog s d ∧ quotientLog s d ≤ 95 := by
  obtain ⟨hl, hu⟩ := quotientLog_spec hs hd (by omega)
  constructor
  · by_contra h
    have : 2 ^ (quotientLog s d + 1) ≤ 2 ^ 1 := Nat.pow_le_pow_right (by omega) (by omega)
    have := Nat.mul_le_mul this (Nat.le_refl d)
    omega
  · by_contra h
    have : 2 ^ 96 ≤ 2 ^ quotientLog s d := Nat.pow_le_pow_right (by omega) (by omega)
    have := Nat.mul_le_mul this hd
    omega

/-- The quotient scaled as fdiv64 scales it lies in 2^52 .. 2^53. -/
theorem scaled_range {s d : Nat} (hs : 0 < s) (hs' : s < 2 ^ 32) (hd : 0 < d) (hd' : d < 2 ^ 63) :
    2 ^ 52 * d ≤ s * 2 ^ (116 - quotientLog s d) ∧ s * 2 ^ (116 - quotientLog s d) < 2 ^ 53 * d := by
  obtain ⟨hl, hu⟩ := quotientLog_spec hs hd (by omega)
  have hr := quotientLog_range hs hs' hd hd'
  generalize quotientLog s d = l at hl hu hr ⊢
  have hsplit : 2 ^ (116 - l) * 2 ^ l = 2 ^ 64 * 2 ^ 52 := by
    rw [← Nat.pow_add, ← Nat.pow_add]
    congr 1
    omega
  have hpos : 0 < 2 ^ l := Nat.two_pow_pos l
  have heq : s * 2 ^ (116 - l) * 2 ^ l = s * 2 ^ 64 * 2 ^ 52 := by
    rw [Nat.mul_assoc, hsplit, Nat.mul_assoc]
  constructor
  · refine Nat.le_of_mul_le_mul_right ?_ hpos
    rw [heq]
    calc 2 ^ 52 * d * 2 ^ l = 2 ^ l * d * 2 ^ 52 := by ring
      _ ≤ s * 2 ^ 64 * 2 ^ 52 := Nat.mul_le_mul_right _ hl
  · refine Nat.lt_of_mul_lt_mul_right (a := 2 ^ l) ?_
    rw [heq]
    calc s * 2 ^ 64 * 2 ^ 52 < 2 ^ (l + 1) * d * 2 ^ 52 := Nat.mul_lt_mul_of_pos_right hu (by norm_num)
      _ = 2 ^ 53 * d * 2 ^ l := by rw [Nat.pow_succ]; ring

/-- The significand fdiv64 rounds to. -/
def significand (s d : Nat) : Nat := divNearestEven (s * 2 ^ (116 - quotientLog s d)) d

theorem significand_range {s d : Nat} (hs : 0 < s) (hs' : s < 2 ^ 32) (hd : 0 < d) (hd' : d < 2 ^ 63) :
    2 ^ 52 ≤ significand s d ∧ significand s d ≤ 2 ^ 53 :=
  divNearestEven_bounds hd (scaled_range hs hs' hd hd').1 (scaled_range hs hs' hd hd').2

/-! ### The pattern -/

theorem fdiv64_zero (d : Nat) : fdiv64 0 d = 0 := by
  rw [fdiv64, if_pos (.inl rfl)]

/-- The pattern as one number, exponent field and significand added. -/
theorem fdiv64_toNat {s d : Nat} (hs : 0 < s) (hs' : s < 2 ^ 32) (hd : 0 < d) (hd' : d < 2 ^ 63) :
    (fdiv64 s d).toNat = (quotientLog s d + 958) * 2 ^ 52 + significand s d := by
  have hr := quotientLog_range hs hs' hd hd'
  have hm := significand_range hs hs' hd hd'
  rw [fdiv64, if_neg (by omega)]
  show (BitVec.ofNat 64 ((quotientLog s d + 958) * 2 ^ 52 + significand s d)).toNat = _
  rw [BitVec.toNat_ofNat]
  omega

theorem b64Exp_toNat (b : BitVec 64) : b64Exp b = b.toNat / 2 ^ 52 % 2 ^ 11 := by
  simp only [b64Exp, BitVec.extractLsb'_toNat, Nat.shiftRight_eq_div_pow]

theorem b64Frac_toNat (b : BitVec 64) : b64Frac b = b.toNat % 2 ^ 52 := by
  simp only [b64Frac, BitVec.extractLsb'_toNat, Nat.shiftRight_eq_div_pow, Nat.pow_zero, Nat.div_one]

theorem b64Sign_toNat (b : BitVec 64) : b.getLsbD 63 = decide (2 ^ 63 ≤ b.toNat) := by
  have := b.isLt
  rw [BitVec.getLsbD, Nat.testBit_eq_decide_div_mod_eq]
  congr 1
  apply propext
  omega

/-- The exponent field is the binade's, or one more where the rounding carried. -/
theorem fdiv64_fields {s d : Nat} (hs : 0 < s) (hs' : s < 2 ^ 32) (hd : 0 < d) (hd' : d < 2 ^ 63) :
    (fdiv64 s d).getLsbD 63 = false ∧
      ((significand s d < 2 ^ 53 ∧ b64Exp (fdiv64 s d) = quotientLog s d + 959 ∧
          b64Frac (fdiv64 s d) = significand s d - 2 ^ 52) ∨
        (significand s d = 2 ^ 53 ∧ b64Exp (fdiv64 s d) = quotientLog s d + 960 ∧ b64Frac (fdiv64 s d) = 0)) := by
  have hr := quotientLog_range hs hs' hd hd'
  have hm := significand_range hs hs' hd hd'
  rw [b64Sign_toNat, b64Exp_toNat, b64Frac_toNat, fdiv64_toNat hs hs' hd hd', decide_eq_false_iff_not]
  omega

/-- The value of a positive pattern whose exponent field is not 0. -/
theorem b64Value_normal {b : BitVec 64} (hs : b.getLsbD 63 = false) (he : b64Exp b ≠ 0) :
    b64Value b = ((2 ^ 52 + b64Frac b : Nat) : ℚ) * (2 : ℚ) ^ ((b64Exp b : Int) - 1075) := by
  unfold b64Value
  rw [hs, if_neg Bool.false_ne_true, if_neg he, one_mul, Nat.cast_add, Nat.cast_pow, Nat.cast_ofNat]

/-- The value of the pattern is the rounded significand in the quotient's binade. -/
theorem fdiv64_value {s d : Nat} (hs : 0 < s) (hs' : s < 2 ^ 32) (hd : 0 < d) (hd' : d < 2 ^ 63) :
    b64Value (fdiv64 s d) = (significand s d : ℚ) * (2 : ℚ) ^ ((quotientLog s d : Int) - 116) := by
  obtain ⟨hsign, ⟨-, he, hf⟩ | ⟨heq, he, hf⟩⟩ := fdiv64_fields hs hs' hd hd'
  · have hm := (significand_range hs hs' hd hd').1
    have hsum : 2 ^ 52 + (significand s d - 2 ^ 52) = significand s d := by omega
    have hexp : ((quotientLog s d + 959 : Nat) : Int) - 1075 = (quotientLog s d : Int) - 116 := by
      push_cast
      ring
    rw [b64Value_normal hsign (by omega), he, hf, hsum, hexp]
  · rw [b64Value_normal hsign (by omega), he, hf, heq]
    have : ((quotientLog s d + 960 : Nat) : Int) - 1075 = ((quotientLog s d : Int) - 116) + 1 := by
      push_cast
      ring
    rw [this, zpow_add_one₀ (by norm_num), Nat.add_zero, Nat.pow_succ 2 52, Nat.cast_mul, Nat.cast_ofNat]
    ring

end Sys2Proof.Machine
end

