-- ==== Sys2Proof/Laws/Host.lean ====
section
/-! SUPPORT. The step of the whole by the turn taken, the host's transactions, and the register window offset by offset. -/

namespace Sys2Proof.Machine

open Sys2Proof

/-! ### Turns -/

theorem step_turn {s : State} {t : Turn} {rest : List Turn} (hc : s.cfg.legal = true) (hs : s.sched = t :: rest) :
    step s = takeTurn t { s with sched := rest } := by
  unfold step
  rw [if_pos hc, hs]

theorem step_default {s : State} (hc : s.cfg.legal = true) (hs : s.sched = []) : step s = takeTurn s.defaultTurn s := by
  unfold step
  rw [if_pos hc, hs]

theorem step_illegal {s : State} (hc : s.cfg.legal = false) : step s = .refused (.illegalConfig s.cfg.maxDim) := by
  unfold step
  rw [hc]
  rfl

theorem engineReady_iff (s : State) : s.engineReady = true ↔ s.eng ≠ .idle ∧ s.rst = false := by
  simp [State.engineReady, State.busy]

theorem defaultTurn_engine {s : State} (h : s.eng ≠ .idle) (hr : s.rst = false) : s.defaultTurn = .engine := by
  unfold State.defaultTurn
  rw [if_pos ((engineReady_iff s).mpr ⟨h, hr⟩)]

theorem defaultTurn_host {s : State} (h : s.eng = .idle ∨ s.rst = true) : s.defaultTurn = .host := by
  unfold State.defaultTurn
  rw [if_neg]
  rw [engineReady_iff]
  rcases h with h | h <;> simp [h]

theorem engineTurn_released {s : State} (h : s.rst = false) : engineTurn s = engineStep s := by
  simp [engineTurn, h]

theorem engineTurn_reset {s : State} (h : s.rst = true) : engineTurn s = .next s := by
  simp [engineTurn, h]

/-- With no turn listed a busy engine out of reset moves. -/
theorem step_engine {s : State} (hc : s.cfg.legal = true) (hs : s.sched = []) (h : s.eng ≠ .idle) (hr : s.rst = false) :
    step s = engineStep s := by
  rw [step_default hc hs, defaultTurn_engine h hr]
  exact engineTurn_released hr

/-- With no turn listed and the engine idle the host moves. -/
theorem step_host {s : State} (hc : s.cfg.legal = true) (hs : s.sched = []) (h : s.eng = .idle) : step s = hostTurn s := by
  rw [step_default hc hs, defaultTurn_host (.inl h)]
  rfl

/-! ### Transactions -/

theorem hostTurn_nil {s : State} (h : s.host = []) : hostTurn s = .next s := by
  unfold hostTurn
  rw [h]

theorem hostTurn_wr {s : State} {a : Access} {v : Word} {rest : List HostOp} (h : s.host = .wr a v :: rest) :
    hostTurn s = hostWrite a v { s with host := rest } := by
  unfold hostTurn
  rw [h]

theorem hostTurn_rd {s : State} {a : Access} {rest : List HostOp} (h : s.host = .rd a :: rest) :
    hostTurn s = hostRead a { s with host := rest } := by
  unfold hostTurn
  rw [h]

theorem hostTurn_wait {s : State} {rest : List HostOp} (h : s.host = .wait :: rest) :
    hostTurn s = .next (hostPoll rest s) := by
  unfold hostTurn
  rw [h]

theorem hostWrite_supported {a : Access} (h : a.supported = true) (v : Word) (s : State) :
    hostWrite a v s = .next (if s.rst then s else writeOffset a.off v s) := by
  unfold hostWrite
  rw [if_pos h]

theorem hostWrite_unsupported {a : Access} (h : a.supported = false) (v : Word) (s : State) :
    hostWrite a v s = .refused (.unsupportedAccess a) := by
  unfold hostWrite
  rw [h]
  rfl

theorem hostRead_supported {a : Access} (h : a.supported = true) (s : State) :
    hostRead a s = .next { s with reads := readOffset s a.off :: s.reads } := by
  unfold hostRead
  rw [if_pos h]

theorem hostRead_unsupported {a : Access} (h : a.supported = false) (s : State) :
    hostRead a s = .refused (.unsupportedAccess a) := by
  unfold hostRead
  rw [h]
  rfl

/-- R54 in numbers. -/
theorem supported_iff (a : Access) : a.supported = true ↔ a.width = 32 ∧ a.off.toNat % 4 = 0 := by
  have low : ∀ o : BitVec 8, (o.extractLsb' 0 2 == 0) = true ↔ o.toNat % 4 = 0 := by decide
  simp only [Access.supported, Bool.and_eq_true, decide_eq_true_eq, low]

/-! ### The register window (R19) -/

theorem readOffset_eq {off : BitVec 8} {r : RegName} (h : regAt off = some r) (s : State) :
    readOffset s off = readReg s r := by
  unfold readOffset
  rw [h]

theorem writeOffset_eq {off : BitVec 8} {r : RegName} (h : regAt off = some r) (v : Word) (s : State) :
    writeOffset off v s = writeReg r v s := by
  unfold writeOffset
  rw [h]

theorem readOffset_none {off : BitVec 8} (h : regAt off = none) (s : State) : readOffset s off = 0 := by
  unfold readOffset
  rw [h]

theorem writeOffset_none {off : BitVec 8} (h : regAt off = none) (v : Word) (s : State) : writeOffset off v s = s := by
  unfold writeOffset
  rw [h]

/-- R19 with offset and register in step: each register stands at one offset. -/
theorem regAt_injective {a b : BitVec 8} {r : RegName} (ha : regAt a = some r) (hb : regAt b = some r) : a = b := by
  have only : ∀ r : RegName, ∃ o : BitVec 8, ∀ off : BitVec 8, regAt off = some r → off = o := fun r => by
    cases r
    exacts [⟨0x00, by decide⟩, ⟨0x04, by decide⟩, ⟨0x08, by decide⟩, ⟨0x0C, by decide⟩, ⟨0x10, by decide⟩,
      ⟨0x14, by decide⟩, ⟨0x18, by decide⟩, ⟨0x1C, by decide⟩, ⟨0x20, by decide⟩, ⟨0x24, by decide⟩,
      ⟨0x28, by decide⟩, ⟨0x2C, by decide⟩, ⟨0x30, by decide⟩, ⟨0x34, by decide⟩, ⟨0x38, by decide⟩,
      ⟨0x3C, by decide⟩, ⟨0x40, by decide⟩, ⟨0x44, by decide⟩, ⟨0x48, by decide⟩, ⟨0x4C, by decide⟩,
      ⟨0x50, by decide⟩, ⟨0x54, by decide⟩, ⟨0x58, by decide⟩, ⟨0x5C, by decide⟩]
  obtain ⟨o, ho⟩ := only r
  rw [ho a ha, ho b hb]

/-- Two states whose registers but one agree read alike at every offset but that register's. -/
theorem readOffset_other {s t : State} {r : RegName} {off q : BitVec 8} (hoff : regAt off = some r)
    (h : ∀ p : RegName, p ≠ r → readReg t p = readReg s p) (hq : q ≠ off) : readOffset t q = readOffset s q := by
  cases hp : regAt q with
  | none => rw [readOffset_none hp, readOffset_none hp]
  | some p =>
    rw [readOffset_eq hp, readOffset_eq hp]
    exact h p fun hpr => hq (regAt_injective (hpr ▸ hp) hoff)

@[simp] theorem writeOffset_ctrl (v : Word) (s : State) : writeOffset 0x08 v s = writeCtrl v s := rfl

@[simp] theorem writeOffset_status (v : Word) (s : State) : writeOffset 0x0C v s = writeStatus v s := rfl

@[simp] theorem writeOffset_cmd (v : Word) (s : State) : writeOffset 0x10 v s = writeCmd v s := rfl

theorem writeCmd_idle {s : State} (h : s.eng = .idle) (w : Word) : writeCmd w s = accept w s := by
  unfold writeCmd
  rw [if_pos h]

theorem writeCmd_busy {s : State} (h : s.eng ≠ .idle) (w : Word) : writeCmd w s = { s with drop := true } := by
  unfold writeCmd
  rw [if_neg h]

/-! ### What the host can't change -/

/-- The tables, the built dimensions, VALID and the result registers are as before. -/
structure KeepsResultState (s t : State) : Prop where
  vt : t.vt = s.vt
  nt : t.nt = s.nt
  valid : t.valid = s.valid
  builtWidth : t.builtWidth = s.builtWidth
  builtHeight : t.builtHeight = s.builtHeight
  res : t.res = s.res

theorem writeReg_keepsResultState (r : RegName) (v : Word) (s : State) : KeepsResultState s (writeReg r v s) := by
  cases r
  case cmd =>
    rw [show writeReg .cmd v s = writeCmd v s from rfl]
    by_cases h : s.eng = .idle
    · rw [writeCmd_idle h]
      exact ⟨rfl, rfl, rfl, rfl, rfl, rfl⟩
    · rw [writeCmd_busy h]
      exact ⟨rfl, rfl, rfl, rfl, rfl, rfl⟩
  all_goals exact ⟨rfl, rfl, rfl, rfl, rfl, rfl⟩

theorem writeOffset_keepsResultState (off : BitVec 8) (v : Word) (s : State) : KeepsResultState s (writeOffset off v s) := by
  cases h : regAt off with
  | none =>
    rw [writeOffset_none h]
    exact ⟨rfl, rfl, rfl, rfl, rfl, rfl⟩
  | some r =>
    rw [writeOffset_eq h]
    exact writeReg_keepsResultState r v s

/-- No transaction of the host writes them (R43, R44, R53). -/
theorem hostTurn_keepsResultState {s t : State} (h : hostTurn s = .next t) : KeepsResultState s t := by
  unfold hostTurn at h
  split at h
  · cases h
    exact ⟨rfl, rfl, rfl, rfl, rfl, rfl⟩
  · rename_i a v rest _
    unfold hostWrite at h
    split at h
    · cases h
      split
      · exact ⟨rfl, rfl, rfl, rfl, rfl, rfl⟩
      · obtain ⟨h1, h2, h3, h4, h5, h6⟩ := writeOffset_keepsResultState a.off v { s with host := rest }
        exact ⟨h1, h2, h3, h4, h5, h6⟩
    · cases h
  · unfold hostRead at h
    split at h
    · cases h
      exact ⟨rfl, rfl, rfl, rfl, rfl, rfl⟩
    · cases h
  · cases h
    exact ⟨rfl, rfl, rfl, rfl, rfl, rfl⟩

end Sys2Proof.Machine
end

