-- ==== Sys2Proof/Laws/PerInstr.lean ====
section
/-! SUPPORT. One fact for every command, one lemma per constructor: the decoder reads a well-formed command back from its
word. -/

namespace Sys2Proof.Laws.RoundTrip

open Sys2Proof

/-- The word of a well-formed command decodes to that command, through the decoder and through the table's numbering. -/
def Statement (i : Instr) : Prop :=
  i.wellFormed = true → decode (encode i) = .legal i ∧ decodeTableWord 32 (encode i).toNat = some i

theorem nop : Statement .nop := by unfold Statement; decide

theorem build : Statement .build := by unfold Statement; decide

theorem qsum : Statement .qsum := by unfold Statement; decide

theorem qavg : Statement .qavg := by unfold Statement; decide

theorem qnzc : Statement .qnzc := by unfold Statement; decide

theorem qnzavg : Statement .qnzavg := by unfold Statement; decide

end Sys2Proof.Laws.RoundTrip
end

