-- ==== Sys2Proof/Tests/Slice0.lean ====
section
/-! SUPPORT. The model's own tests: smoke tests of well-formedness, words decoded bit by bit, one small step per command,
and for every obligation with hypotheses a state that meets them. Expected values come from spec/95_test_vectors.md
(vector names in the comments) or are worked out by hand from the rule named. -/

namespace Sys2Proof.Tests

open Sys2Proof Sys2Proof.Machine

/-! ### Well-formedness -/

/-- R5. -/
theorem test_config_zero_refused : ({ maxDim := 0 } : Config).legal = false := by decide

theorem test_config_above_refused : ({ maxDim := 4105 } : Config).legal = false := by decide

theorem test_config_bounds_legal :
    ({ maxDim := 1 } : Config).legal = true ∧ ({ maxDim := 4104 } : Config).legal = true ∧ Config.default.legal = true := by
  decide

/-- R54. -/
theorem test_halfword_access_refused : (⟨16, 0x10⟩ : Access).supported = false := by decide

theorem test_misaligned_access_refused :
    (⟨32, 0x11⟩ : Access).supported = false ∧ (⟨32, 0x12⟩ : Access).supported = false ∧
      (⟨32, 0x13⟩ : Access).supported = false := by decide

theorem test_word_access_supported :
    (⟨32, 0x10⟩ : Access).supported = true ∧ (⟨32, 0xFC⟩ : Access).supported = true := by decide

/-- R71: there is no ill-formed command to refuse. -/
theorem test_every_command_well_formed (i : Instr) : i.wellFormed = true := by cases i <;> rfl

/-! ### Decoding: words written out bit by bit from R70 and R73 -/

theorem test_decode_nop : decode 0b0000000000000000000000000000_0000#32 = .legal .nop := by decide

theorem test_decode_build : decode 0b0000000000000000000000000000_0001#32 = .legal .build := by decide

theorem test_decode_qsum : decode 0b0000000000000000000000000000_0010#32 = .legal .qsum := by decide

theorem test_decode_qavg : decode 0b0000000000000000000000000000_0011#32 = .legal .qavg := by decide

theorem test_decode_qnzc : decode 0b0000000000000000000000000000_0100#32 = .legal .qnzc := by decide

theorem test_decode_qnzavg : decode 0b0000000000000000000000000000_0101#32 = .legal .qnzavg := by decide

/-- R75, C-2: the first and the last reserved OP. -/
theorem test_decode_reserved_op :
    decode 0b0000000000000000000000000000_0110#32 = .illegal .reservedOpcode ∧
      decode 0b0000000000000000000000000000_1111#32 = .illegal .reservedOpcode := by decide

/-- R74, C-3, C-4: the lowest and the highest reserved bit, and all of them. -/
theorem test_decode_reserved_bits :
    decode 0b0000000000000000000000000001_0001#32 = .illegal .reservedBits ∧
      decode 0b1000000000000000000000000000_0000#32 = .illegal .reservedBits ∧
      decode 0xFFFFFFFF#32 = .illegal .reservedBits := by decide

theorem test_encode_words :
    encode .nop = 0x00000000 ∧ encode .build = 0x00000001 ∧ encode .qsum = 0x00000002 ∧ encode .qavg = 0x00000003 ∧
      encode .qnzc = 0x00000004 ∧ encode .qnzavg = 0x00000005 := by decide

/-- The table's numbering (spec/opcode_table.json). -/
theorem test_decodeTableWord : decodeTableWord 32 3 = some .qavg ∧ decodeTableWord 32 6 = none := by decide

/-! ### fdiv64: averages of 95_test_vectors.md -/

/-- S1, Q-4, Q-8c. -/
theorem test_fdiv64_grid_a :
    fdiv64 7 6 = 0x3FF2AAAAAAAAAAAB ∧ fdiv64 7 3 = 0x4002AAAAAAAAAAAB ∧ fdiv64 3 2 = 0x3FF8000000000000 := by decide

/-- Q-19, Q-22, Q-26. -/
theorem test_fdiv64_fractions :
    fdiv64 5 9 = 0x3FE1C71C71C71C72 ∧ fdiv64 1 3 = 0x3FD5555555555555 ∧
      fdiv64 4278190080 16777216 = 0x406FE00000000000 ∧ fdiv64 0 4 = 0 := by decide

/-! ### Small states

`placed` has grid A of TB-1 (3 by 2: 0,4,0 / 2,1,0 at 0x1000) in the grid memory and the operands of P1; `builtA` has its
tables as TB-1 lists them. -/

def placed : State :=
  { State.reset with
    ops := { width := 3, height := 2, gridBase := 0x1000, qx0 := 0, qy0 := 0, qx1 := 2, qy1 := 1 }
    grid := [(0x1000, 0), (0x1001, 4), (0x1002, 0), (0x1003, 2), (0x1004, 1), (0x1005, 0)] }

def vtA : Table :=
  [(0, [(0, 0), (1, 0), (2, 0), (3, 0)]), (1, [(0, 0), (1, 0), (2, 4), (3, 4)]), (2, [(0, 0), (1, 2), (2, 7), (3, 7)])]

def ntA : Table :=
  [(0, [(0, 0), (1, 0), (2, 0), (3, 0)]), (1, [(0, 0), (1, 0), (2, 1), (3, 1)]), (2, [(0, 0), (1, 1), (2, 3), (3, 3)])]

def builtA : State := { placed with valid := true, builtWidth := 3, builtHeight := 2, vt := vtA, nt := ntA }

/-- Grid A as a function. -/
def gridA : Grid := fun x y => ((([[0, 4, 0], [2, 1, 0]] : List (List Byte)).getD y []).getD x 0)

/-- A query's coordinates put into the operand registers. -/
def withRect (x0 y0 x1 y1 : Word) (s : State) : State :=
  { s with ops := { s.ops with qx0 := x0, qy0 := y0, qx1 := x1, qy1 := y1 } }

/-- A field of the next state, where there is one. -/
def resultOf {α : Type} (f : State → α) : Host.Outcome State Fault Refusal → Option α
  | .next t => some (f t)
  | .fault _ => none
  | .refused _ => none

/-- A command's word accepted from a state, and its EXEC step taken. -/
def afterCommand (w : Word) (s : State) : Host.Outcome State Fault Refusal := step (s.withFetchWord 32 w.toNat)

/-! ### One step each -/

/-- C-1, and NOP with a table (R88's example). -/
theorem test_nop_status :
    resultOf statusWord (afterCommand 0 State.reset) = some 0x00000004 ∧
      resultOf statusWord (afterCommand 0 builtA) = some 0x00000006 := by decide

/-- C-2, C-3, C-4. -/
theorem test_illegal_status :
    resultOf statusWord (afterCommand 6 State.reset) = some 0x00000054 ∧
      resultOf statusWord (afterCommand 0x11 State.reset) = some 0x00000054 ∧
      resultOf statusWord (afterCommand 0xFFFFFFFF State.reset) = some 0x00000054 := by decide

/-- TB-4's rows with an error, and TB-7's failed rebuild. -/
def buildStatus (base w h : Word) (s : State) : Option Word :=
  resultOf statusWord (afterCommand 1 { s with ops := { s.ops with gridBase := base, width := w, height := h } })

theorem test_build_checks :
    buildStatus 0 3 3 State.reset = some 0x00000014 ∧ buildStatus 0x1000 0 3 State.reset = some 0x00000024 ∧
      buildStatus 0x1000 0xFFFFFFFF 3 State.reset = some 0x00000024 ∧
      buildStatus 0x1000 4097 1 State.reset = some 0x00000034 ∧ buildStatus 0 0 0 State.reset = some 0x00000014 ∧
      buildStatus 0x1000 5000 0 State.reset = some 0x00000024 ∧ buildStatus 0x1000 0 2 builtA = some 0x00000026 := by
  decide

/-- TB-1's trace: the cell step at (1, 1) reads v = 1 and writes VT[2][2] = 1+2+4-0 = 7, NT[2][2] = 3. -/
def midBuild : State :=
  { placed with
    eng := .building, snap := { op := .legal .build, cmdword := 1, ops := placed.ops }, cx := 1, cy := 1
    vt := [(0, [(0, 0), (1, 0), (2, 0), (3, 0)]), (1, [(0, 0), (1, 0), (2, 4), (3, 4)]), (2, [(0, 0), (1, 2)])]
    nt := [(0, [(0, 0), (1, 0), (2, 0), (3, 0)]), (1, [(0, 0), (1, 0), (2, 1), (3, 1)]), (2, [(0, 0), (1, 1)])] }

theorem test_build_cell :
    resultOf (fun t => (t.vt.read 2 2, t.nt.read 2 2, t.cx, t.cy)) (step midBuild) = some (some 7, some 3, 2, 1) := by
  decide

/-- Q-2, and Q-18's extreme coordinates on grid A: the whole grid, clipped. -/
theorem test_qsum :
    resultOf (fun t => (t.res.sum, t.res.nzc, t.res.count, t.res.average)) (afterCommand 2 builtA) = some (7, 0, 6, 0) ∧
      resultOf (fun t => (t.res.sum, t.res.count, resFlagsWord t.res))
        (afterCommand 2 (withRect 0x80000000 0x80000000 0x7FFFFFFF 0x7FFFFFFF builtA)) = some (7, 6, 2) := by decide

/-- Q-1, Q-8 (the clamped count is the denominator). -/
theorem test_qavg :
    resultOf (fun t => (t.res.sum, t.res.nzc, t.res.average)) (afterCommand 3 builtA) =
        some (7, 0, 0x3FF2AAAAAAAAAAAB) ∧
      resultOf (fun t => (t.res.count, t.res.average)) (afterCommand 3 (withRect (-5) (-5) 100 100 builtA)) =
        some (6, 0x3FF2AAAAAAAAAAAB) := by decide

/-- Q-3; and an out-of-range rectangle, x0 = W (R113, R119). -/
theorem test_qnzc :
    resultOf (fun t => (t.res.sum, t.res.nzc, t.res.count)) (afterCommand 4 builtA) = some (0, 3, 6) ∧
      resultOf (fun t => (t.res.nzc, t.res.count, resFlagsWord t.res, t.err))
        (afterCommand 4 (withRect 3 0 5 1 builtA)) = some (0, 0, 1, .ok) := by decide

/-- Q-4, Q-8b (the guard). -/
theorem test_qnzavg :
    resultOf (fun t => (t.res.sum, t.res.nzc, t.res.average)) (afterCommand 5 builtA) =
        some (7, 3, 0x4002AAAAAAAAAAAB) ∧
      resultOf (fun t => (t.res.sum, t.res.count, t.res.average)) (afterCommand 5 (withRect 2 0 2 1 builtA)) =
        some (0, 2, 0) := by decide

/-- Q-4's row read through the window at R19's offsets, and BUILT_WIDTH, BUILT_HEIGHT of TB-1. -/
theorem test_result_offsets :
    resultOf
        (fun t => ([0x30, 0x34, 0x38, 0x3C, 0x40, 0x44, 0x48, 0x4C, 0x50, 0x54, 0x58, 0x5C] : List (BitVec 8)).map
          (readOffset t))
        (afterCommand 5 builtA) =
      some [7, 3, 6, 0xAAAAAAAB, 0x4002AAAA, 0, 3, 0, 2, 0, 3, 2] := by decide

/-- R111: from reset a query gives NO_TABLE. -/
theorem test_query_no_table : resultOf statusWord (afterCommand 2 State.reset) = some 0x00000044 := by decide

/-- C-7, C-8. -/
theorem test_write_one_to_clear :
    statusWord (writeOffset 0x0C 0x00000008 { State.reset with done := true, drop := true }) = 0x00000004 ∧
      statusWord (writeOffset 0x0C 0x00000004 { State.reset with done := true, err := .noTable, ie := true }) =
        0x00000040 := by decide

/-- P1's text, one command line and one pseudo-instruction line each (R79, R82). -/
theorem test_assembler :
    assemble ["WR GRID_BASE, 0x1000 ; base", "BUILD", "WAIT"] =
        some [.wr ⟨32, 0x1C⟩ 0x1000, .wr ⟨32, 0x10⟩ 1, .wait] ∧
      assemble ["QSUM -3, 0, -5, 5"] =
        some [.wr ⟨32, 0x20⟩ 0xFFFFFFFD, .wr ⟨32, 0x24⟩ 0, .wr ⟨32, 0x28⟩ 0xFFFFFFFB, .wr ⟨32, 0x2C⟩ 5,
          .wr ⟨32, 0x10⟩ 2, .wait] ∧
      assemble ["RD STATUS -> 0x0000_0006"] = some [.rd ⟨32, 0x0C⟩] ∧ assemble ["RUN CMD"] = none := by decide

/-! ### Witnesses: for each obligation with hypotheses, states and operands that meet them -/

theorem inStorage_of_all {t : Table} {m : Nat}
    (h : (t.all fun r => decide (r.1 ≤ m) && r.2.all fun c => decide (c.1 ≤ m)) = true) : InStorage t m := by
  intro x y v hv
  simp only [Table.read, Option.bind_eq_some_iff] at hv
  obtain ⟨r, hr, hc⟩ := hv
  have hrow := List.all_eq_true.mp h _ (mem_of_findKey hr)
  simp only [Bool.and_eq_true, decide_eq_true_eq, List.all_eq_true] at hrow
  exact ⟨hrow.2 _ (mem_of_findKey hc), hrow.1⟩

/-- `builtA`'s tables are the prefix sums of grid A (R43, R44). -/
theorem tablesOf_builtA : TablesOf builtA gridA 3 2 := by
  intro x hx y hy
  interval_cases x <;> interval_cases y <;> exact ⟨⟨_, rfl, by decide⟩, _, rfl, by decide⟩

/-- A state with a completed build meets the invariant. -/
theorem inv_builtA : builtA.Inv where
  config := by decide
  forms := ⟨by decide, by decide, by decide⟩
  vtStorage := inStorage_of_all (by decide)
  ntStorage := inStorage_of_all (by decide)
  flags := by decide
  busy := by decide
  op := by decide
  reset := fun h => absurd h Bool.false_ne_true
  building := fun h => absurd h (by decide)
  built := fun _ => ⟨by unfold State.dimsLegal; decide, by decide, by decide, gridA, tablesOf_builtA⟩

/-- A command word just accepted, no table built, with a host program. -/
def accepted (w : Word) (host : List HostOp) : State := { accept w placed with host := host }

/-- It meets the invariant. -/
theorem inv_accepted (w : Word) (host : List HostOp) : (accepted w host).Inv where
  config := rfl
  forms := ⟨rfl, rfl, rfl⟩
  vtStorage := inStorage_of_all rfl
  ntStorage := inStorage_of_all rfl
  flags := rfl
  busy := fun _ => rfl
  op := fun _ => rfl
  reset := fun h => absurd h Bool.false_ne_true
  building := fun h => by cases h
  built := fun h => absurd h Bool.false_ne_true

/-- A running BUILD meets it: TB-1's, at cell (1, 1). -/
theorem partialTables_midBuild : PartialTables midBuild gridA := by
  intro x y
  have hw : midBuild.runWidth = 3 := by decide
  have hh : midBuild.runHeight = 2 := by decide
  have hx : midBuild.cx = 1 := rfl
  have hy : midBuild.cy = 1 := rfl
  rw [hw, hh, hx, hy]
  unfold CellWritten Visited
  constructor
  · rintro ⟨h1, h2, h3⟩
    interval_cases x <;> interval_cases y <;>
      first | exact ⟨⟨_, rfl, by decide⟩, _, rfl, by decide⟩ | omega
  · intro h
    have hvt := inStorage_of_all (t := midBuild.vt) (m := 3) (by decide) x y
    have hnt := inStorage_of_all (t := midBuild.nt) (m := 3) (by decide) x y
    by_cases hxy : x ≤ 3 ∧ y ≤ 3
    · obtain ⟨h1, h2⟩ := hxy
      interval_cases x <;> interval_cases y <;> first | exact ⟨rfl, rfl⟩ | omega
    · refine ⟨Option.eq_none_iff_forall_ne_some.mpr fun v hv => hxy (hvt v hv), ?_⟩
      exact Option.eq_none_iff_forall_ne_some.mpr fun v hv => hxy (hnt v hv)

theorem buildPasses_midBuild : midBuild.buildPasses := by unfold State.buildPasses; decide

theorem inv_midBuild : midBuild.Inv where
  config := by decide
  forms := ⟨by decide, by decide, by decide⟩
  vtStorage := inStorage_of_all (by decide)
  ntStorage := inStorage_of_all (by decide)
  flags := by decide
  busy := fun _ => rfl
  op := fun _ => by decide
  reset := fun h => absurd h Bool.false_ne_true
  building := fun _ => ⟨rfl, rfl, buildPasses_midBuild, .inl (by decide), gridA, partialTables_midBuild⟩
  built := fun h => absurd h Bool.false_ne_true

/-- IllegalWordCompletesWithNoOtherEffect: both clauses at the ends of their ranges; the last legal word meets neither. -/
theorem test_witness_illegal_word :
    ((0x10 : Word).toNat / 16 ≠ 0 ∧ (0xFFFFFFFF : Word).toNat / 16 ≠ 0) ∧
      (6 ≤ (0x6 : Word).toNat % 16 ∧ 6 ≤ (0xF : Word).toNat % 16) ∧
      ¬((0x5 : Word).toNat / 16 ≠ 0 ∨ 6 ≤ (0x5 : Word).toNat % 16) := by decide

/-- StepRunsTheDecodedCommand: QSUM accepted, with an engine turn listed and with none. -/
theorem test_witness_step_runs :
    Instr.qsum.wellFormed = true ∧ decode 0x00000002 = .legal .qsum ∧
      (∀ turns ∈ ([[.engine], []] : List (List Turn)), ∃ s : State, s.sched = turns ∧ s.snap.op = decode 0x00000002 ∧
        s.eng = .exec ∧ s.rst = false ∧ s.cfg.legal = true) :=
  ⟨rfl, rfl, fun turns _ => ⟨{ accept 2 placed with sched := turns }, rfl, rfl, rfl, rfl, rfl⟩⟩

/-- A state in which the host is about to write CMD. -/
def commanding (eng : Eng) : State :=
  { placed with eng := eng, host := [.wr ⟨32, 0x10⟩ 0x00000002], sched := [.host] }

/-- CommandAccepted (idle) and CommandWhileBusyIsDropped (both busy states). -/
theorem test_witness_command_write (eng : Eng) :
    (commanding eng).cfg.legal = true ∧ (commanding eng).rst = false ∧ (commanding eng).eng = eng ∧
      (commanding eng).host = .wr { width := 32, off := 0x10 } 0x00000002 :: [] ∧
      (commanding eng).sched = .host :: [] := ⟨rfl, rfl, rfl, rfl, rfl⟩

/-- A running BUILD whose finish step is next. -/
def endBuild : State := { midBuild with cx := 0, cy := 2 }

/-- CompletionSetsStatusAtOnce: a NOP that completes, an illegal word, and a BUILD's finish step. -/
theorem test_witness_completion :
    (exec .nop (accepted 0 []) = .next (complete .ok (accepted 0 [])) ∧ (complete .ok (accepted 0 [])).eng = .idle) ∧
      ((accepted 6 []).eng = .exec ∧ (accepted 6 []).snap.op = .illegal .reservedOpcode ∧
        engineStep (accepted 6 []) = .next (complete .illegalCmd (accepted 6 []))) ∧
      endBuild.eng = .building ∧ engineStep endBuild = .next (buildFinish endBuild) ∧ (buildFinish endBuild).eng = .idle :=
  ⟨⟨rfl, rfl⟩, ⟨rfl, by decide, rfl⟩, rfl, rfl, rfl⟩

/-- CompletionCodePairing: a step of a legal command, of an illegal one and of a running BUILD. -/
theorem test_witness_pairing :
    ((accepted 0 []).eng = .exec ∧ (accepted 0 []).snap.op = .legal .nop ∧
        (engineStep (accepted 0 [])) = .next (complete .ok (accepted 0 []))) ∧
      ((accepted 6 []).eng = .exec ∧ (accepted 6 []).snap.op = .illegal .reservedOpcode ∧
        (engineStep (accepted 6 [])) = .next (complete .illegalCmd (accepted 6 []))) ∧
      midBuild.eng = .building ∧ engineStep midBuild = .next (buildCell midBuild) :=
  ⟨⟨rfl, by decide, rfl⟩, ⟨rfl, by decide, rfl⟩, rfl, rfl⟩

/-- NopCompletes: DROP = 0, with and without a table. -/
theorem test_witness_nop :
    (builtA.drop = false ∧ builtA.valid = true) ∧ placed.drop = false ∧ placed.valid = false := by decide

/-- BUILD's operands in a snapshot. -/
def snapshotOf (base w h : Word) : State :=
  { State.reset with
    eng := .exec
    snap := { op := .legal .build, cmdword := 1,
              ops := { width := w, height := h, gridBase := base, qx0 := 0, qy0 := 0, qx1 := 0, qy1 := 0 } } }

/-- BuildChecksInOrder: each check alone at the end of its range, each priority, and the largest grid that passes. -/
theorem test_witness_build_checks :
    (∀ e ∈ [snapshotOf 0 3 3, snapshotOf 1 0 3, snapshotOf 1 3 0, snapshotOf 1 0xFFFFFFFF 3, snapshotOf 1 4097 1,
        snapshotOf 1 1 4097, snapshotOf 0 0 0, snapshotOf 1 5000 0, snapshotOf 1 4096 0x80000000], ¬e.buildPasses) ∧
      (snapshotOf 1 4096 4096).buildPasses ∧ (snapshotOf 0xFFFFFFFF 1 1).buildPasses := by
  unfold State.buildPasses
  decide

/-- BuildStarts, BuildComputesPrefixSums. -/
theorem test_witness_build_runs :
    (snapshotOf 0x1000 3 2).cfg.legal = true ∧ (snapshotOf 0x1000 3 2).eng = .exec ∧
      (snapshotOf 0x1000 3 2).snap.op = .legal .build ∧ (snapshotOf 0x1000 3 2).buildPasses ∧
      (snapshotOf 0x1000 3 2).runWidth * (snapshotOf 0x1000 3 2).runHeight + 2 = 8 := by
  unfold State.buildPasses
  decide

/-- BuildCellStep: inside a row, and at a row's last cell. -/
theorem test_witness_build_cell :
    (midBuild.eng = .building ∧ midBuild.cx < midBuild.runWidth ∧ midBuild.cy < midBuild.runHeight ∧
        midBuild.cx + 1 ≠ midBuild.runWidth) ∧
      ({ midBuild with cx := 2 }.cx < { midBuild with cx := 2 }.runWidth) ∧
      { midBuild with cx := 2 }.cx + 1 = { midBuild with cx := 2 }.runWidth := by decide

/-- BuildFinishStep. -/
theorem test_witness_build_finish :
    endBuild.eng = .building ∧ endBuild.cy = endBuild.runHeight := by decide

/-- BuildFrame: a step of each kind, and offsets just beside the three that it leaves open. -/
theorem test_witness_build_frame :
    (∀ off ∈ ([0x08, 0x10, 0x54, 0x60] : List (BitVec 8)), off ∉ ([0x0C, 0x58, 0x5C] : List (BitVec 8))) ∧
    exec .build (snapshotOf 0 3 3) = .next (complete .nullBuffer (snapshotOf 0 3 3)) ∧
      midBuild.eng = .building ∧ engineStep midBuild = .next (buildCell midBuild) :=
  ⟨by decide, rfl, rfl, rfl⟩

theorem test_witness_queries : isQuery .qsum ∧ isQuery .qavg ∧ isQuery .qnzc ∧ isQuery .qnzavg := by simp [isQuery]

/-- A query's rectangle in the snapshot of `builtA`. -/
def asking (x0 y0 x1 y1 : Word) : State :=
  { builtA with
    eng := .exec
    snap := { op := .legal .qsum, cmdword := 2, ops := { placed.ops with qx0 := x0, qy0 := y0, qx1 := x1, qy1 := y1 } } }

/-- QueryWithoutTable. -/
theorem test_witness_no_table : isQuery .qsum ∧ (accepted 2 []).valid = false := ⟨.inl rfl, rfl⟩

/-- OutOfRangeQuery: each of the four sides alone, at its nearest (grid A is 3 by 2). -/
theorem test_witness_out_of_range :
    (∀ e ∈ [asking (-1) 0 (-2) 1, asking 0 (-1) 2 (-2), asking 3 0 4 1, asking 0 2 2 3], e.valid = true ∧ e.rectOut) ∧
      ¬(asking 2 1 2 1).rectOut ∧ ¬(asking (-1) (-1) 0 0).rectOut := by
  unfold State.rectOut spanOut
  decide

/-- InRangeCommonResults, InRangeIndicesAreOrdered, and the in-range clauses of the four result statements: inside, and clipped on each side. -/
theorem test_witness_in_range :
    (∀ e ∈ [asking 0 0 2 1, asking (-1) 0 2 1, asking 0 (-1) 2 1, asking 0 0 3 1, asking 0 0 2 2],
        isQuery .qsum ∧ e.valid = true ∧ e.dimsLegal ∧ ¬e.rectOut) ∧
      ¬(asking 0 0 2 1).rectClipped ∧ (asking (-1) 0 2 1).rectClipped ∧ (asking 0 (-1) 2 1).rectClipped ∧
      (asking 0 0 3 1).rectClipped ∧ (asking 0 0 2 2).rectClipped := by
  unfold State.rectOut State.dimsLegal State.rectClipped spanOut spanClipped isQuery
  decide

/-- QnzavgResult's two cases: a rectangle with no non-zero cell (Q-8b) and one with some. -/
theorem test_witness_qnzavg_guard :
    (asking 2 0 2 1).fourTerms (ntCell (asking 2 0 2 1)) = 0 ∧
      (asking 0 0 2 1).fourTerms (ntCell (asking 0 0 2 1)) ≠ 0 := by decide

/-- QueriesAnswerRectangleSums, SingleCellAndFullGrid: tables that hold the prefix sums of grid A; the last cell, and the
full grid's coordinates. -/
theorem test_witness_rectangle_sums :
    (asking 0 0 2 1).valid = true ∧ (asking 0 0 2 1).dimsLegal ∧ TablesOf (asking 0 0 2 1) gridA 3 2 ∧
      ¬(asking 0 0 2 1).rectOut ∧ (2 < (asking 2 1 2 1).builtWidth.toNat ∧ 1 < (asking 2 1 2 1).builtHeight.toNat) ∧
      (asking 0 0 2 1).snap.ops.qx1 = (asking 0 0 2 1).builtWidth - 1 ∧
      (asking 0 0 2 1).snap.ops.qy1 = (asking 0 0 2 1).builtHeight - 1 := by
  refine ⟨rfl, ?_, tablesOf_builtA, ?_, ?_, ?_, ?_⟩
  · unfold State.dimsLegal
    decide
  · unfold State.rectOut spanOut
    decide
  · decide
  · decide
  · decide

/-- The all-zero 2 by 2 grid of S2, built, and asked for in full. -/
def zeroTable : Table :=
  [(0, [(0, 0), (1, 0), (2, 0)]), (1, [(0, 0), (1, 0), (2, 0)]), (2, [(0, 0), (1, 0), (2, 0)])]

def askingZero : State :=
  { asking 0 0 1 1 with builtWidth := 2, builtHeight := 2, vt := zeroTable, nt := zeroTable }

/-- SingleCellAndFullGrid: QNZAVG's clause with no non-zero cell (S2) and with some. -/
theorem test_witness_full_grid_means :
    (askingZero.valid = true ∧ askingZero.dimsLegal ∧ TablesOf askingZero (fun _ _ => 0) 2 2 ∧
        askingZero.snap.ops.qx1 = askingZero.builtWidth - 1 ∧ askingZero.snap.ops.qy1 = askingZero.builtHeight - 1 ∧
        rectSum (nonZeroOf fun _ _ => 0) 0 2 0 2 = 0) ∧
      rectSum (nonZeroOf gridA) 0 3 0 2 ≠ 0 := by
  refine ⟨⟨rfl, ?_, ?_, by decide, by decide, by decide⟩, by decide⟩
  · unfold State.dimsLegal
    decide
  · intro x hx y hy
    interval_cases x <;> interval_cases y <;> exact ⟨⟨_, rfl, by decide⟩, _, rfl, by decide⟩

/-- QueriesArePure: two states that agree in what a query reads and differ elsewhere. -/
theorem test_witness_pure :
    { asking 0 0 2 1 with epoch := 1, ie := true }.valid = (asking 0 0 2 1).valid ∧
      { asking 0 0 2 1 with epoch := 1, ie := true } ≠ asking 0 0 2 1 ∧
      ∀ x ≤ 3, ∀ y ≤ 2, vtCell { asking 0 0 2 1 with epoch := 1, ie := true } x y = vtCell (asking 0 0 2 1) x y ∧
        ntCell { asking 0 0 2 1 with epoch := 1, ie := true } x y = ntCell (asking 0 0 2 1) x y := by
  refine ⟨rfl, by decide, fun x hx y hy => ?_⟩
  interval_cases x <;> interval_cases y <;> exact ⟨rfl, rfl⟩

/-- FdivNearestTiesToEven: the ends of its operands' ranges, and a quotient of exactly 255. -/
theorem test_witness_fdiv :
    ((0 : Nat) < 2 ^ 32 ∧ 1 ≤ (1 : Nat) ∧ (1 : Nat) < 2 ^ 32) ∧ ((4294967295 : Nat) < 2 ^ 32 ∧ 255 ≤ 255 * (1 : Nat)) := by
  decide

/-- AverageIsNeverSpecial: a QAVG that answers. -/
theorem test_witness_average :
    isQuery .qavg ∧ resultOf (fun t => t.res.average) (exec .qavg (asking 0 1 1 1)) = some 0x3FF8000000000000 :=
  ⟨.inr (.inl rfl), by decide⟩

/-- ReadOnlyAndReservedIgnoreWrites: the first and last RO offsets, the first and last reserved ones. -/
theorem test_witness_read_only :
    (∀ off ∈ ([0x00, 0x04, 0x30, 0x5C, 0x60, 0xFC] : List (BitVec 8)),
        off ∉ ([0x08, 0x0C, 0x10, 0x14, 0x18, 0x1C, 0x20, 0x24, 0x28, 0x2C] : List (BitVec 8))) ∧
      ((0x60 : BitVec 8).toNat % 4 = 0 ∧ 0x60 ≤ (0x60 : BitVec 8).toNat) ∧
      (0xFC : BitVec 8).toNat % 4 = 0 ∧ 0x60 ≤ (0xFC : BitVec 8).toNat := by decide

/-- OnlyAlignedWordAccesses: each way to be unsupported alone, and the ends of the supported offsets. -/
theorem test_witness_accesses :
    ((⟨8, 0x0C⟩ : Access).width ≠ 32 ∧ (⟨8, 0x0C⟩ : Access).off.toNat % 4 = 0) ∧
      ((⟨32, 0x0D⟩ : Access).width = 32 ∧ (⟨32, 0x0D⟩ : Access).off.toNat % 4 ≠ 0) ∧
      ((⟨32, 0x00⟩ : Access).width = 32 ∧ (⟨32, 0x00⟩ : Access).off.toNat % 4 = 0) ∧
      (⟨32, 0xFC⟩ : Access).off.toNat % 4 = 0 ∧ State.reset.rst = false := by decide

/-- HostWritesDoNotDisturbTheEngine. -/
theorem test_witness_busy : (accepted 1 []).eng ≠ .idle ∧ midBuild.eng ≠ .idle := by decide

/-- IdAndParamNeverChange, StepKeepsCanonicalForms, StepKeepsInvariant: a step that changes something. -/
theorem test_witness_step :
    builtA.Inv ∧ CanonicalForms builtA ∧ midBuild.Inv ∧ CanonicalForms midBuild ∧ midBuild.cfg.maxDim = 4096 ∧
      step midBuild = .next (buildCell midBuild) :=
  ⟨inv_builtA, inv_builtA.forms, inv_midBuild, inv_midBuild.forms, rfl, rfl⟩

/-- HostTransactionsInOrder: each transaction, and WAIT both busy and idle. -/
theorem test_witness_transactions :
    (0xFC : BitVec 8).toNat % 4 = 0 ∧ (accepted 1 [.wr ⟨32, 0x14⟩ 3, .wait]).rst = false ∧
      (accepted 1 [.wr ⟨32, 0x14⟩ 3, .wait]).host = .wr ⟨32, 0x14⟩ 3 :: [.wait] ∧
      (accepted 1 [.rd ⟨32, 0x0C⟩]).host = .rd ⟨32, 0x0C⟩ :: [] ∧
      ((accepted 1 [.wait]).host = .wait :: [] ∧ (accepted 1 [.wait]).busy = true) ∧
      ({ placed with host := [.wait] }.host = .wait :: [] ∧ { placed with host := [.wait] }.busy = false) := by decide

/-- OnlyQueriesWriteResults: a step that writes them, and a reset that clears them. -/
theorem test_witness_results_written :
    resultOf (fun t => decide (t.res ≠ (asking 0 0 2 1).res)) (step (asking 0 0 2 1)) = some true ∧
      resultOf (fun t => decide (t.res ≠ { Results.zero with sum := 7 }))
        (step { builtA with res := { Results.zero with sum := 7 }, sched := [.setReset true] }) = some true := by decide

/-- OnlyBuildWritesTables: steps of states of the invariant that write them, with no turn listed; and the same with the
engine's turn listed. -/
theorem test_witness_tables_written :
    resultOf (fun t => decide (t.vt ≠ midBuild.vt)) (step { midBuild with sched := [.engine] }) = some true ∧
    (accepted 1 []).Inv ∧ midBuild.Inv ∧ resultOf (fun t => decide (t.vt ≠ midBuild.vt)) (step midBuild) = some true ∧
      resultOf (fun t => decide (t.vt ≠ (accepted 1 []).vt)) (step (accepted 1 [])) = some true :=
  ⟨by decide, inv_accepted _ _, inv_midBuild, by decide, by decide⟩

/-- BuiltTablesAreMonotonic. -/
theorem test_witness_monotonic :
    builtA.Inv ∧ builtA.valid = true ∧ 0 ≤ 3 ∧ 3 ≤ builtA.builtWidth.toNat ∧ 2 ≤ builtA.builtHeight.toNat :=
  ⟨inv_builtA, rfl, by decide, by decide, by decide⟩

/-- ResetAbandonsEverything: a running BUILD, either level; IllegalConfigRefused: just outside either end. -/
theorem test_witness_reset (level : Bool) :
    { midBuild with sched := [.setReset level] }.cfg.legal = true ∧
      { midBuild with sched := [.setReset level] }.sched = .setReset level :: [] ∧
      (⟨32, 0x14⟩ : Access).supported = true := ⟨rfl, rfl, by decide⟩

theorem test_witness_illegal_config :
    { State.reset with cfg := { maxDim := 0 } }.cfg.maxDim < 1 ∧
      4104 < { State.reset with cfg := { maxDim := 4105 } }.cfg.maxDim := by decide

/-- UnspecifiedStateNeverMatters: `builtA` with another snapshot, cursor and counter. -/
theorem test_witness_unspecified :
    builtA.Inv ∧ { builtA with snap := midBuild.snap, cx := 1, epoch := 5 } ≠ builtA ∧
      SameSpecified builtA { builtA with snap := midBuild.snap, cx := 1, epoch := 5 } ∧
      State.Inv { builtA with snap := midBuild.snap, cx := 1, epoch := 5 } := by
  refine ⟨inv_builtA, by decide, ?_, ?_⟩
  · constructor <;> first | rfl | exact fun h => absurd rfl h | exact fun h => absurd h (by decide) | skip
    intro _ x hx y hy
    replace hx : x ≤ 3 := hx
    replace hy : y ≤ 2 := hy
    interval_cases x <;> interval_cases y <;> exact ⟨rfl, rfl⟩
  · exact
      { config := inv_builtA.config, forms := ⟨by decide, by decide, by decide⟩, vtStorage := inv_builtA.vtStorage
        ntStorage := inv_builtA.ntStorage, flags := inv_builtA.flags, busy := by decide, op := by decide
        reset := fun h => absurd h Bool.false_ne_true, building := fun h => absurd h (by decide)
        built := fun _ => ⟨by unfold State.dimsLegal; decide, by decide, by decide, gridA, tablesOf_builtA⟩ }

/-- EveryCommandCompletes: an accepted command and a running BUILD. -/
theorem test_witness_running :
    (accepted 1 []).Inv ∧ (accepted 1 []).eng ≠ .idle ∧ midBuild.Inv ∧ midBuild.eng ≠ .idle :=
  ⟨inv_accepted _ _, by decide, inv_midBuild, by decide⟩

/-- WaitEnds: a WAIT behind an accepted BUILD. -/
theorem test_witness_wait :
    (accepted 1 [.wait]).Inv ∧ (accepted 1 [.wait]).rst = false ∧ (accepted 1 [.wait]).sched = [] ∧
      (accepted 1 [.wait]).host = .wait :: [] := ⟨inv_accepted _ _, rfl, rfl, rfl⟩

end Sys2Proof.Tests
end

section
/-! The register window's read-only and reserved part, CTRL and STATUS as words under a host write, and the configuration
registers ID and PARAM (10_state.md): the lemmas, then the statements of that chapter. -/

namespace Sys2Proof.Machine

open Sys2Proof

/-! ### The register map (R19, R20, R42) -/

/-- The registers a host write can act on: the RW, W1C and WO ones of R19. -/
def writableRegs : List RegName :=
  [.ctrl, .status, .cmd, .width, .height, .gridBase, .qx0, .qy0, .qx1, .qy1]

theorem writeReg_readOnly {r : RegName} (h : r ∉ writableRegs) (v : Word) (s : State) : writeReg r v s = s := by
  cases r
  case ctrl | status | cmd | width | height | gridBase | qx0 | qy0 | qx1 | qy1 => exact absurd (by decide) h
  all_goals rfl

theorem mem_regMap_of_regAt {off : BitVec 8} {r : RegName} (h : regAt off = some r) : (off, r) ∈ regMap := by
  obtain ⟨⟨off', r'⟩, hfind, rfl⟩ := Option.map_eq_some_iff.mp h
  obtain rfl : off' = off := by simpa using List.find?_some hfind
  exact List.mem_of_find?_eq_some hfind

/-- R42: no register stands at 0x60 or above. -/
theorem regAt_reserved {off : BitVec 8} (h : 0x60 ≤ off.toNat) : regAt off = none := by
  have below : ∀ e ∈ regMap, e.1.toNat < 0x60 := by decide
  refine Option.eq_none_iff_forall_ne_some.mpr fun r hr => ?_
  exact absurd (below _ (mem_regMap_of_regAt hr)) (by simpa using h)

/-- The ten offsets at which the writable registers stand. -/
def writableOffsets : List (BitVec 8) := [0x08, 0x0C, 0x10, 0x14, 0x18, 0x1C, 0x20, 0x24, 0x28, 0x2C]

theorem regMap_readOnly : ∀ e ∈ regMap, e.1 ∉ writableOffsets → e.2 ∉ writableRegs := by decide

theorem writeOffset_readOnly {off : BitVec 8} (h : off ∉ writableOffsets) (v : Word) (s : State) :
    writeOffset off v s = s := by
  cases hr : regAt off with
  | none => exact writeOffset_none hr v s
  | some r =>
    rw [writeOffset_eq hr]
    exact writeReg_readOnly (regMap_readOnly _ (mem_regMap_of_regAt hr) h) v s

/-- Settles O32: a register outside the writable ones ignores its write, and no register stands at a reserved offset. -/
theorem readOnlyAndReservedIgnoreWrites : Obligations.ReadOnlyAndReservedIgnoreWrites := by
  intro off s v
  exact ⟨fun h => writeOffset_readOnly h v s, fun _ h => readOffset_none (regAt_reserved h) s, rfl⟩

/-! ### STATUS (R29) -/

/-- STATUS bit by bit, at every index: from bit 32 up a word reads false. -/
theorem statusWord_bits (s : State) (k : Nat) :
    (statusWord s).getLsbD k =
      if k = 0 then s.busy else if k = 1 then s.valid else if k = 2 then s.done else if k = 3 then s.drop
      else if k < 8 then s.err.code.getLsbD (k - 4) else false := by
  by_cases hk : k < 32
  · exact statusWord_bit s hk
  · rw [BitVec.getLsbD_of_ge _ _ (by omega), if_neg, if_neg, if_neg, if_neg, if_neg] <;> omega

@[simp] theorem writeStatus_busy (v : Word) (s : State) : (writeStatus v s).busy = s.busy := rfl

/-- The bits of STATUS that a host write can clear: DONE and DROP. -/
theorem clearMask_bit {k : Nat} (h : k < 32) : (0x0000000C : Word).getLsbD k = (decide (k = 2) || decide (k = 3)) := by
  have bits : ∀ i : Fin 32, (0x0000000C : Word).getLsbD i = (decide (i.val = 2) || decide (i.val = 3)) := by decide
  exact bits ⟨k, h⟩

/-- A host write to STATUS as an operation on the word (R20's W1C rule): only bits 2 and 3 meet the mask. -/
theorem statusWord_writeStatus (v : Word) (s : State) :
    statusWord (writeStatus v s) = statusWord s &&& ~~~(v &&& 0x0000000C) := by
  refine BitVec.eq_of_getLsbD_eq fun k hk => ?_
  rw [BitVec.getLsbD_and, BitVec.getLsbD_not, BitVec.getLsbD_and, clearMask_bit hk, statusWord_bits, statusWord_bits]
  by_cases h2 : k = 2
  · subst h2
    simp [w1c]
  · by_cases h3 : k = 3
    · subst h3
      simp [w1c]
    · simp [h2, h3, hk]

theorem readReg_writeStatus_other (v : Word) (s : State) (p : RegName) (h : p ≠ .status) :
    readReg (writeStatus v s) p = readReg s p := by
  cases p
  case status => exact absurd rfl h
  all_goals rfl

/-- Settles O33: STATUS is laid out bit by bit, its write is the W1C rule on the word, and no other register reads from
DONE or DROP. -/
theorem statusWordAndWriteOneToClear : Obligations.StatusWordAndWriteOneToClear := by
  intro s v
  exact ⟨statusWord_bits s, statusWord_writeStatus v s,
    fun q hq => readOffset_other (r := .status) (off := 0x0C) rfl (readReg_writeStatus_other v s) hq, rfl⟩

/-! ### CTRL and the interrupt (R23, R50) -/

theorem readReg_writeCtrl_other (v : Word) (s : State) (p : RegName) (h : p ≠ .ctrl) :
    readReg (writeCtrl v s) p = readReg s p := by
  cases p
  case ctrl => exact absurd rfl h
  all_goals rfl

theorem ctrlWord_eq (s : State) : ctrlWord s = (BitVec.ofBool s.ie).setWidth 32 := by
  unfold ctrlWord
  cases s.ie <;> decide

theorem ctrlWord_writeCtrl (v : Word) (s : State) : ctrlWord (writeCtrl v s) = v &&& 0x00000001 := by
  rw [ctrlWord_eq, writeCtrl_ie]
  exact BitVec.and_one_eq_setWidth_ofBool_getLsbD.symm

theorem irq_iff (s : State) : s.irq = true ↔ s.ie = true ∧ s.done = true := by
  simp [State.irq]

/-- IRQ is low once a host write has cleared DONE (R29, R50). -/
theorem irq_writeStatus_clear {v : Word} (h : v.getLsbD 2 = true) (s : State) : (writeStatus v s).irq = false := by
  simp [State.irq, w1c, h]

/-- Settles O34: CTRL holds IE alone, and IRQ is formed from IE and DONE as they stand. -/
theorem ctrlAndIrq : Obligations.CtrlAndIrq := by
  intro s v
  exact ⟨ctrlWord_writeCtrl v s, by decide, rfl, irq_writeStatus_clear (by decide) s, irq_iff s,
    fun q hq => readOffset_other (r := .ctrl) (off := 0x08) rfl (readReg_writeCtrl_other v s) hq, rfl⟩

/-! ### ID and PARAM (R21, R22) -/

theorem EngineEffect.cfg {s t : State} (h : EngineEffect s t) : t.cfg = s.cfg := by
  cases h <;> rfl

theorem Effect.cfg {s t : State} (h : Effect s t) : t.cfg = s.cfg := by
  cases h
  case engine he => exact he.cfg
  all_goals rfl

theorem step_cfg {s t : State} (h : step s = .next t) : t.cfg = s.cfg := by
  obtain ⟨-, _, _, _, he⟩ := step_effect h
  exact he.cfg

theorem paramWord_maxDim (c : Config) : (paramWord c).extractLsb' 0 16 = BitVec.ofNat 16 c.maxDim := by
  unfold paramWord
  exact BitVec.extractLsb'_append_eq_right

theorem paramWord_accWidth (c : Config) : (paramWord c).extractLsb' 16 8 = 32 := by
  unfold paramWord
  rw [BitVec.extractLsb'_append_eq_of_le (by decide)]
  decide

theorem paramWord_cellWidth (c : Config) : (paramWord c).extractLsb' 24 8 = 8 := by
  unfold paramWord
  rw [BitVec.extractLsb'_append_eq_of_le (by decide)]
  decide

/-- Settles O37: ID is a literal and PARAM reads the configuration, which no effect of a step changes. -/
theorem idAndParamNeverChange : Obligations.IdAndParamNeverChange := by
  intro s t h
  have param : ∀ u : State, readOffset u 0x04 = paramWord u.cfg := fun _ => rfl
  rw [param, param, step_cfg h]
  refine ⟨rfl, rfl, rfl, fun hmax => ?_, paramWord_maxDim s.cfg, paramWord_accWidth s.cfg, paramWord_cellWidth s.cfg⟩
  rw [paramWord, hmax]
  decide

end Sys2Proof.Machine
end

section
/-! Register accesses by width and alignment (20_memory.md): the statements of that chapter. -/

namespace Sys2Proof.Machine

open Sys2Proof

/-- R54: an access is unsupported exactly by its width or by its alignment. -/
theorem unsupported_iff (a : Access) : a.supported = false ↔ a.width ≠ 32 ∨ a.off.toNat % 4 ≠ 0 := by
  rw [← Bool.not_eq_true, supported_iff, Decidable.not_and_iff_or_not]

/-- With reset released a supported write has the effect of its offset's register. -/
theorem hostWrite_supported_released {a : Access} (ha : a.supported = true) (v : Word) {s : State}
    (hrst : s.rst = false) : hostWrite a v s = .next (writeOffset a.off v s) := by
  rw [hostWrite_supported ha, hrst, if_neg Bool.false_ne_true]

/-- Settles O35: width and alignment decide whether an access is supported, and that decides between refusing it and
carrying it out. -/
theorem onlyAlignedWordAccesses : Obligations.OnlyAlignedWordAccesses := by
  intro s a v
  constructor
  · intro hbad
    have ha : a.supported = false := (unsupported_iff a).mpr hbad
    exact ⟨hostRead_unsupported ha s, hostWrite_unsupported ha v s⟩
  · intro hwidth halign
    have ha : a.supported = true := (supported_iff a).mpr ⟨hwidth, halign⟩
    exact ⟨hostRead_supported ha s, hostWrite_supported_released ha v⟩

end Sys2Proof.Machine
end

section
/-! Command words (30_encoding.md): the decoder on the illegal words and the engine's step on them, the assembler's
offsets and words; then the statements of that chapter. -/

namespace Sys2Proof.Machine

open Sys2Proof

/-! ### Illegal words (R70, R74, R75) -/

theorem rsvdField_toNat (w : Word) : (rsvdField w).toNat = w.toNat / 16 := by
  rw [rsvdField, BitVec.extractLsb'_toNat, Nat.shiftRight_eq_div_pow]
  omega

theorem opField_toNat (w : Word) : (opField w).toNat = w.toNat % 16 := by
  rw [opField, BitVec.extractLsb'_toNat, Nat.shiftRight_zero]

/-- R75: no opcode from 6 up is in the map. -/
theorem decodeOp_reserved : ∀ op : BitVec 4, 6 ≤ op.toNat → decodeOp op = .illegal .reservedOpcode := by decide

/-- R74: RSVD decides first, whatever OP is. -/
theorem decode_reservedBits {w : Word} (h : w.toNat / 16 ≠ 0) : decode w = .illegal .reservedBits := by
  have hr : rsvdField w ≠ 0 := fun h0 => h (by rw [← rsvdField_toNat, h0]; rfl)
  rw [decode, if_pos hr]

theorem decode_reservedOpcode {w : Word} (h0 : w.toNat / 16 = 0) (h : 6 ≤ w.toNat % 16) :
    decode w = .illegal .reservedOpcode := by
  have hr : rsvdField w = 0 := BitVec.eq_of_toNat_eq ((rsvdField_toNat w).trans h0)
  rw [decode, if_neg (not_not_intro hr), decodeOp_reserved _ (by rwa [opField_toNat])]

theorem decode_illegal {w : Word} (h : w.toNat / 16 ≠ 0 ∨ 6 ≤ w.toNat % 16) : ∃ why, decode w = .illegal why := by
  by_cases h0 : w.toNat / 16 = 0
  · exact ⟨_, decode_reservedOpcode h0 (h.resolve_left (not_not_intro h0))⟩
  · exact ⟨_, decode_reservedBits h0⟩

/-- R89. -/
theorem engineStep_illegal {s : State} (he : s.eng = .exec) {why : Illegal} (ho : s.snap.op = .illegal why) :
    engineStep s = .next (complete .illegalCmd s) := by
  simp only [engineStep, he, ho, execIllegal]

/-- Settles O3: the accepted word decodes as illegal, so the engine's step is `complete` with ILLEGAL_CMD. -/
theorem illegalWordCompletesWithNoOtherEffect : Obligations.IllegalWordCompletesWithNoOtherEffect := by
  intro s w h
  obtain ⟨why, hw⟩ := decode_illegal h
  exact ⟨complete .illegalCmd (accept w s), engineStep_illegal rfl hw, completedWith_complete _ _,
    statusWord_err _, keepsBesideStatus_complete _ _⟩

/-! ### The pseudo-instructions (R79 to R83) -/

/-- The assembler's offset of a register is the one the register window answers at. -/
theorem offset_of_regAt {off : BitVec 8} {r : RegName} (h : regAt off = some r) : r.offset = off := by
  have offsets : ∀ e ∈ regMap, e.2.offset = e.1 := by decide
  exact offsets _ (mem_regMap_of_regAt h)

theorem wrOp_of_regAt {off : BitVec 8} {r : RegName} (h : regAt off = some r) (v : Word) :
    wrOp r v = .wr ⟨32, off⟩ v := by
  rw [wrOp, offset_of_regAt h, Access.word]

theorem commandOp_eq (i : Instr) : commandOp i = .wr ⟨32, 0x10⟩ (encode i) := wrOp_of_regAt rfl _

/-- R82: the four query pseudo-instructions differ in the CMD word alone. -/
theorem queryOps_eq (i : Instr) (x0 y0 x1 y1 : Word) :
    queryOps i x0 y0 x1 y1 =
      [.wr ⟨32, 0x20⟩ x0, .wr ⟨32, 0x24⟩ y0, .wr ⟨32, 0x28⟩ x1, .wr ⟨32, 0x2C⟩ y1, .wr ⟨32, 0x10⟩ (encode i),
        .wait] := by
  rw [queryOps, wrOp_of_regAt (off := 0x20) rfl, wrOp_of_regAt (off := 0x24) rfl, wrOp_of_regAt (off := 0x28) rfl,
    wrOp_of_regAt (off := 0x2C) rfl, commandOp_eq]

/-- R81. -/
theorem expand_build (base w h : Word) :
    (AsmLine.build base w h).expand =
      [.wr ⟨32, 0x1C⟩ base, .wr ⟨32, 0x14⟩ w, .wr ⟨32, 0x18⟩ h, .wr ⟨32, 0x10⟩ (encode .build), .wait] := by
  rw [AsmLine.expand, wrOp_of_regAt (off := 0x1C) rfl, wrOp_of_regAt (off := 0x14) rfl,
    wrOp_of_regAt (off := 0x18) rfl, commandOp_eq]

/-- Settles O52: each register's offset is the one of the register map, each command's word its encoding. -/
theorem pseudoInstructionsExpand : Obligations.PseudoInstructionsExpand := by
  intro a b c d
  exact ⟨expand_build a b c, queryOps_eq .qsum a b c d, queryOps_eq .qavg a b c d, queryOps_eq .qnzc a b c d,
    queryOps_eq .qnzavg a b c d, congrArg ([·]) (wrOp_of_regAt rfl _), congrArg ([·]) (wrOp_of_regAt rfl _),
    congrArg ([·]) (wrOp_of_regAt rfl _)⟩

end Sys2Proof.Machine
end

section
/-! The life of a command (40_command.md): acceptance and DROP on a CMD write, NOP, and who writes the result registers;
the lemmas, then the statements of that chapter. -/

namespace Sys2Proof.Machine

open Sys2Proof

/-! ### A host write to CMD (R84, R85) -/

/-- The host's turn with a 32-bit write to CMD takes the turn and the transaction off their lists and is then the CMD
register's write. -/
theorem step_cmdWrite {s : State} {w : Word} {rest : List HostOp} {turns : List Turn} (hcfg : s.cfg.legal = true)
    (hrst : s.rst = false) (hhost : s.host = .wr { width := 32, off := 0x10 } w :: rest)
    (hsched : s.sched = .host :: turns) :
    step s = .next (writeCmd w { s with host := rest, sched := turns }) := by
  have haccess : Access.supported { width := 32, off := 0x10 } = true := by decide
  calc step s
      = hostTurn { s with sched := turns } := step_turn hcfg hsched
    _ = hostWrite { width := 32, off := 0x10 } w { s with host := rest, sched := turns } := hostTurn_wr hhost
    _ = .next (writeCmd w { s with host := rest, sched := turns }) := hostWrite_supported_released haccess w hrst

/-- Settles O5: an idle engine accepts the word, and `accept` writes the snapshot, DONE and the engine's state alone. -/
theorem commandAccepted : Obligations.CommandAccepted := by
  intro s w rest turns hcfg hrst hidle hhost hsched
  have haccept : step s = .next (accept w { s with host := rest, sched := turns }) :=
    (step_cmdWrite hcfg hrst hhost hsched).trans
      (congrArg _ (writeCmd_idle (s := { s with host := rest, sched := turns }) hidle w))
  have hbusy : (statusWord (accept w { s with host := rest, sched := turns })).getLsbD 0 = true := statusWord_busy _
  exact ⟨_, haccept, rfl, rfl, rfl, rfl, rfl, hbusy, rfl, rfl, rfl, rfl, rfl, rfl, rfl, rfl, rfl, rfl, fun _ => rfl,
    rfl, rfl⟩

/-! ### DROP and the running command (R85) -/

/-- The state with STATUS.DROP set. -/
def State.dropped (s : State) : State := { s with drop := true }

theorem ownResults_dropped (i : Instr) (s : State) : ownResults i s.dropped = ownResults i s := by
  cases i <;> rfl

theorem buildStep_dropped (s : State) : buildStep s.dropped = mapNext State.dropped (buildStep s) := by
  by_cases hend : s.cy = s.runHeight
  · rw [buildStep_finish hend, buildStep_finish (s := s.dropped) hend]
    rfl
  · rw [buildStep_cell hend, buildStep_cell (s := s.dropped) hend]
    rfl

/-- BUILD's checks read the snapshot and the configuration, never DROP. -/
theorem execBuild_dropped (s : State) : execBuild s.dropped = mapNext State.dropped (execBuild s) := by
  simp only [execBuild, apply_ite (mapNext State.dropped)]
  rfl

theorem runQuery_dropped (own : Clamped → OwnResults) (s : State) :
    runQuery own s.dropped = mapNext State.dropped (runQuery own s) := by
  by_cases hvalid : s.valid = true
  · by_cases hout : s.rectOut
    · rw [runQuery_out hvalid hout, runQuery_out (s := s.dropped) hvalid hout]
      rfl
    · rw [runQuery_in hvalid hout, runQuery_in (s := s.dropped) hvalid hout]
      rfl
  · rw [Bool.not_eq_true] at hvalid
    rw [runQuery_noTable hvalid, runQuery_noTable (s := s.dropped) hvalid]
    rfl

theorem exec_query_dropped {i : Instr} (h : isQuery i) (s : State) :
    exec i s.dropped = mapNext State.dropped (exec i s) := by
  rw [exec_query h, exec_query h, ownResults_dropped, runQuery_dropped]

theorem exec_dropped (i : Instr) (s : State) : exec i s.dropped = mapNext State.dropped (exec i s) := by
  cases i with
  | nop => rfl
  | build => exact execBuild_dropped s
  | qsum | qavg | qnzc | qnzavg => exact exec_query_dropped (by simp [isQuery]) s

/-- No engine step reads DROP. -/
theorem engineStep_dropped (s : State) : engineStep s.dropped = mapNext State.dropped (engineStep s) := by
  cases he : s.eng with
  | idle =>
    rw [engineStep_idle he, engineStep_idle (s := s.dropped) he]
    rfl
  | building =>
    rw [engineStep_building he, engineStep_building (s := s.dropped) he, buildStep_dropped]
  | exec =>
    cases hop : s.snap.op with
    | illegal why =>
      rw [engineStep_illegal he hop, engineStep_illegal (s := s.dropped) he hop]
      rfl
    | legal i => rw [engineStep_exec he hop, engineStep_exec (s := s.dropped) he hop, exec_dropped]

/-- Settles O6: a busy engine drops the word, and every engine step commutes with setting DROP. -/
theorem commandWhileBusyIsDropped : Obligations.CommandWhileBusyIsDropped := by
  refine ⟨?_, engineStep_dropped⟩
  intro s w rest turns hcfg hrst hbusy hhost hsched
  exact (step_cmdWrite hcfg hrst hhost hsched).trans
    (congrArg _ (writeCmd_busy (s := { s with host := rest, sched := turns }) hbusy w))

/-! ### NOP (R88) -/

/-- STATUS after a completion with OK, where no word had been dropped. -/
theorem statusWord_complete_ok {s : State} (h : s.drop = false) :
    statusWord (complete .ok s) = if s.valid then 0x00000006 else 0x00000004 := by
  simp only [statusWord, State.busy, complete_err, complete_drop, complete_done, complete_valid, complete_eng, h]
  cases s.valid <;> decide

/-- Settles O9: NOP is `complete` with OK, whose frame is the one asked for. -/
theorem nopCompletes : Obligations.NopCompletes :=
  ⟨by decide, fun s => ⟨complete .ok s, rfl, completedWith_complete .ok s, keepsBesideStatus_complete s .ok,
    statusWord_complete_ok⟩⟩

/-! ### The writers of the result registers (R94) -/

/-- The step from `s` to `t` is one in which a query in EXEC completes. -/
def CompletesQuery (s t : State) : Prop :=
  ∃ i, isQuery i ∧ s.eng = .exec ∧ s.snap.op = .legal i ∧ t.eng = .idle

theorem EngineEffect.res_eq_or_completesQuery {s t : State} (h : EngineEffect s t) :
    t.res = s.res ∨ CompletesQuery s t := by
  cases h with
  | query i code r he hop hq _ _ => exact .inr ⟨i, hq, he, hop, rfl⟩
  | nop | illegal | buildFails | buildStarts | cell | finish => exact .inl rfl

theorem engineTurn_res {s t : State} (h : engineTurn s = .next t) : t.res = s.res ∨ CompletesQuery s t := by
  cases hrst : s.rst with
  | true =>
    rw [engineTurn_reset hrst] at h
    cases h
    exact .inl rfl
  | false =>
    rw [engineTurn_released hrst] at h
    by_cases hidle : s.eng = .idle
    · rw [engineStep_idle hidle] at h
      cases h
      exact .inl rfl
    · exact (engineStep_cases hidle h).res_eq_or_completesQuery

theorem takeTurn_res {turn : Turn} {s t : State} (h : takeTurn turn s = .next t) :
    t.res = s.res ∨ CompletesQuery s t ∨ ∃ level, turn = .setReset level := by
  cases turn with
  | host => exact .inl (hostTurn_keepsResultState h).res
  | engine => exact (engineTurn_res h).imp_right .inl
  | gridWrite a b =>
    cases h
    exact .inl rfl
  | setReset level => exact .inr (.inr ⟨level, rfl⟩)

theorem defaultTurn_ne_setReset (s : State) (level : Bool) : s.defaultTurn ≠ .setReset level := by
  unfold State.defaultTurn
  split <;> exact Turn.noConfusion

/-- Settles O41: of the turns only the engine's and the reset input's change the result registers, and of the engine's
steps only a query's. -/
theorem onlyQueriesWriteResults : Obligations.OnlyQueriesWriteResults := by
  intro s t h hres
  obtain ⟨hcfg, -⟩ := step_effect h
  cases hsched : s.sched with
  | nil =>
    rw [step_default hcfg hsched] at h
    obtain heq | hquery | ⟨level, hreset⟩ := takeTurn_res h
    · exact absurd heq hres
    · exact .inl hquery
    · exact absurd hreset (defaultTurn_ne_setReset s level)
  | cons turn rest =>
    rw [step_turn hcfg hsched] at h
    obtain heq | hquery | ⟨level, rfl⟩ := takeTurn_res h
    · exact absurd heq hres
    · exact .inl hquery
    · exact .inr ⟨level, rest, rfl⟩

end Sys2Proof.Machine
end

section
/-! BUILD one step at a time (41_build.md): the code of a failing check, the address and the cells of a cell step, and the
registers no step writes; the lemmas, then the statements of that chapter. -/

namespace Sys2Proof.Machine

open Sys2Proof

/-! ### The checks (R96 to R99) -/

/-- The code of the first check that applies, for a BUILD whose checks do not all pass. -/
def State.buildFailure (s : State) : Completion :=
  if s.snap.ops.gridBase = 0 then .nullBuffer
  else if s.snap.ops.width.toInt ≤ 0 ∨ s.snap.ops.height.toInt ≤ 0 then .invalidSize else .sizeLimit

theorem buildFailure_code (s : State) :
    s.buildFailure.code =
      if s.snap.ops.gridBase = 0 then 1
      else if s.snap.ops.width.toInt ≤ 0 ∨ s.snap.ops.height.toInt ≤ 0 then 2 else 3 := by
  simp only [State.buildFailure, apply_ite Completion.code]
  rfl

/-- A BUILD that passes the first two checks and yet fails is over the limit. -/
theorem exceeds_maxDim_of_not_buildPasses {s : State} (h : ¬s.buildPasses) (hbase : s.snap.ops.gridBase ≠ 0)
    (hsize : ¬(s.snap.ops.width.toInt ≤ 0 ∨ s.snap.ops.height.toInt ≤ 0)) :
    (s.cfg.maxDim : Int) < s.snap.ops.width.toInt ∨ (s.cfg.maxDim : Int) < s.snap.ops.height.toInt := by
  by_contra hlimit
  exact h ⟨hbase, by omega, by omega, by omega, by omega⟩

theorem execBuild_fails {s : State} (h : ¬s.buildPasses) : execBuild s = .next (complete s.buildFailure s) := by
  unfold State.buildFailure
  split_ifs with hbase hsize
  · exact execBuild_nullBuffer hbase
  · exact execBuild_invalidSize hbase hsize
  · exact execBuild_sizeLimit hbase hsize (exceeds_maxDim_of_not_buildPasses h hbase hsize)

/-- Settles O10: a failing BUILD is `complete` with the first failing check's code, and the checks read the snapshot and
the configuration alone. -/
theorem buildChecksInOrder : Obligations.BuildChecksInOrder := by
  intro s hfails
  refine ⟨complete s.buildFailure s, execBuild_fails hfails, keepsBesideStatus_complete _ _,
    completedWith_complete _ _, ?_, fun m => execBuild_fails (s := { s with grid := m }) hfails⟩
  rw [statusWord_err, complete_err, buildFailure_code]

/-! ### The cell step (R101 to R103) -/

/-- R15: a grid address is taken modulo 2^32. -/
theorem gridAddr_eq_mod (base : Word) (w x y : Nat) :
    gridAddr base w x y = BitVec.ofNat 32 ((base.toNat + y * w + x) % 2 ^ 32) := by
  refine BitVec.eq_of_toNat_eq ?_
  simp only [gridAddr, BitVec.toNat_ofNat, Nat.mod_mod]

/-- R103: left to right, then down. -/
theorem buildCell_cursor (s : State) :
    if s.cx + 1 = s.runWidth then (buildCell s).cx = 0 ∧ (buildCell s).cy = s.cy + 1
    else (buildCell s).cx = s.cx + 1 ∧ (buildCell s).cy = s.cy := by
  rw [buildCell_cx, buildCell_cy]
  split_ifs <;> exact ⟨rfl, rfl⟩

/-- The engine's step inside the grid is a cell step. -/
theorem engineStep_cell {s : State} (he : s.eng = .building) (hy : s.cy < s.runHeight) :
    engineStep s = .next (buildCell s) :=
  (engineStep_building he).trans (buildStep_cell hy.ne)

/-- Settles O12: a cell step is one write to each table at the cell diagonally after the cursor, so reading after that
write decides every cell. -/
theorem buildCellStep : Obligations.BuildCellStep := by
  intro s he _ hy
  have hbyte : cellByte s = gridRead s _ := congrArg (gridRead s) (gridAddr_eq_mod _ _ _ _)
  exact ⟨buildCell s, cellByte s, engineStep_cell he hy, hbyte, Table.read_write_same _ _ _ _,
    Table.read_write_same _ _ _ _,
    fun x y hxy => ⟨Table.read_write_other _ _ hxy, Table.read_write_other _ _ hxy⟩,
    buildCell_cursor s, he, rfl, rfl, rfl, rfl, rfl, keepsBesideBuild_cell s⟩

/-! ### The registers BUILD never writes (R108) -/

theorem execBuild_keeps {s t : State} (h : execBuild s = .next t) : KeepsBesideBuild s t := by
  obtain ⟨-, hstart⟩ | ⟨-, code, -, hfail⟩ := execBuild_cases s
  · cases hstart.symm.trans h
    exact keepsBesideBuild_start _ _ s
  · cases hfail.symm.trans h
    exact keepsBesideBuild_complete code s

theorem buildStep_keeps {s t : State} (h : buildStep s = .next t) : KeepsBesideBuild s t := by
  by_cases hend : s.cy = s.runHeight
  · cases (buildStep_finish hend).symm.trans h
    exact keepsBesideBuild_finish s
  · cases (buildStep_cell hend).symm.trans h
    exact keepsBesideBuild_cell s

/-- The registers a step of BUILD may write: STATUS and the built dimensions. -/
def buildRegs : List RegName := [.status, .builtWidth, .builtHeight]

theorem KeepsBesideBuild.readReg_besideBuild {s t : State} (h : KeepsBesideBuild s t) {r : RegName} (hr : r ∉ buildRegs) :
    readReg t r = readReg s r := by
  cases r with
  | status | builtWidth | builtHeight => exact absurd (by decide) hr
  | id | cmd => rfl
  | param => exact congrArg paramWord h.cfg
  | ctrl => simp only [readReg, ctrlWord, h.ie]
  | width | height | gridBase | qx0 | qy0 | qx1 | qy1 => simp only [readReg, h.ops]
  | resSum | resNzc | resCount | resAvgLo | resAvgHi | resLowX | resHighX | resLowY | resHighY | resFlags =>
    simp only [readReg, h.res]

/-- The offsets at which the three stand. -/
def buildOffsets : List (BitVec 8) := [0x0C, 0x58, 0x5C]

theorem regMap_besideBuild : ∀ e ∈ regMap, e.1 ∉ buildOffsets → e.2 ∉ buildRegs := by decide

theorem KeepsBesideBuild.readOffset_besideBuild {s t : State} (h : KeepsBesideBuild s t) {off : BitVec 8}
    (hoff : off ∉ buildOffsets) : readOffset t off = readOffset s off := by
  cases hr : regAt off with
  | none => rw [readOffset_none hr, readOffset_none hr]
  | some r =>
    rw [readOffset_eq hr, readOffset_eq hr]
    exact h.readReg_besideBuild (regMap_besideBuild _ (mem_regMap_of_regAt hr) hoff)

/-- Settles O15: the start, failing, cell and finish steps all keep what lies beside BUILD's own state, and every offset
but the three reads from that. -/
theorem buildFrame : Obligations.BuildFrame := by
  intro s t hstep
  have hkeeps : KeepsBesideBuild s t := by
    obtain hexec | ⟨he, hengine⟩ := hstep
    · exact execBuild_keeps hexec
    · exact buildStep_keeps ((engineStep_building he).symm.trans hengine)
  exact ⟨hkeeps, fun _ hoff => hkeeps.readOffset_besideBuild hoff⟩

end Sys2Proof.Machine
end

section
/-! Queries (42_query.md): the one inversion of a query's step, the geometry in the rules' own integers, and the
statements of that chapter about a single query's answer. -/

namespace Sys2Proof.Machine

open Sys2Proof

/-! ### What a query answers -/

/-- What an in-range query of a kind writes into the result registers (R121 to R125). -/
def State.inRangeAnswer (s : State) (i : Instr) : Results :=
  inRangeResults (ownResults i s s.queryClamp) s.queryClamp s.queryClipped

theorem QueryEnds.mono {s t : State} {own own' : Results → Prop} (h : QueryEnds s t own) (himp : ∀ r, own r → own' r) :
    QueryEnds s t own' := by
  obtain ⟨hkeeps, hnoTable, hout, hin⟩ := h
  refine ⟨hkeeps, hnoTable, hout, fun hvalid hrect => ?_⟩
  obtain ⟨hdone, hcommon, hown⟩ := hin hvalid hrect
  exact ⟨hdone, hcommon, himp _ hown⟩

/-- Every query answers a next state from every state, in one of the three ways of R111, R119 and R121. -/
theorem exec_query_ends {i : Instr} (hquery : isQuery i) (s : State) :
    ∃ t, exec i s = .next t ∧ QueryEnds s t (· = s.inRangeAnswer i) := by
  rw [exec_query hquery]
  cases hvalid : s.valid with
  | false =>
    exact ⟨_, runQuery_noTable hvalid _, keepsBesideResults_complete .., fun _ => ⟨completedWith_complete .., rfl⟩,
      fun h => by simp [hvalid] at h, fun h => by simp [hvalid] at h⟩
  | true =>
    by_cases hout : s.rectOut
    · exact ⟨_, runQuery_out hvalid hout _, keepsBesideResults_complete .., fun h => by simp [hvalid] at h,
        fun _ _ => ⟨completedWith_complete .., rfl⟩, fun _ h => absurd hout h⟩
    · exact ⟨_, runQuery_in hvalid hout _, keepsBesideResults_complete .., fun h => by simp [hvalid] at h,
        fun _ h => absurd h hout, fun _ _ => ⟨completedWith_complete .., commonResults_inRange s _, rfl⟩⟩

/-- A query ends with whatever holds of its in-range answer. -/
theorem exec_query_ends_with {i : Instr} (hquery : isQuery i) {s : State} {own : Results → Prop}
    (h : own (s.inRangeAnswer i)) : ∃ t, exec i s = .next t ∧ QueryEnds s t own := by
  obtain ⟨t, hexec, hends⟩ := exec_query_ends hquery s
  exact ⟨t, hexec, hends.mono fun _ hr => hr ▸ h⟩

/-- Settles O28: each of the three ways a query ends has its one code. -/
theorem queriesNeverFail : Obligations.QueriesNeverFail := by
  intro i s hquery
  obtain ⟨t, hexec, -, hnoTable, hout, hin⟩ := exec_query_ends hquery s
  refine ⟨t, hexec, ?_⟩
  cases hvalid : s.valid with
  | false => exact (hnoTable hvalid).1
  | true =>
    by_cases hrect : s.rectOut
    · exact (hout hvalid hrect).1
    · exact (hin hvalid hrect).1

/-! ### The result registers through the window (R19) -/

/-- The offsets of the result registers but RES_FLAGS, which is at 0x54. -/
def resultOffsets : List (BitVec 8) := [0x30, 0x34, 0x38, 0x3C, 0x40, 0x44, 0x48, 0x4C, 0x50]

theorem readOffset_resCount (s : State) : readOffset s 0x38 = s.res.count := rfl
theorem readOffset_resLowX (s : State) : readOffset s 0x44 = s.res.lowX := rfl
theorem readOffset_resHighX (s : State) : readOffset s 0x48 = s.res.highX := rfl
theorem readOffset_resLowY (s : State) : readOffset s 0x4C = s.res.lowY := rfl
theorem readOffset_resHighY (s : State) : readOffset s 0x50 = s.res.highY := rfl
theorem readOffset_resFlags (s : State) : readOffset s 0x54 = resFlagsWord s.res := rfl

theorem map_readOffset_resultOffsets (s : State) :
    resultOffsets.map (readOffset s) =
      [s.res.sum, s.res.nzc, s.res.count, s.res.avgLo, s.res.avgHi, s.res.lowX, s.res.highX, s.res.lowY, s.res.highY] :=
  rfl

/-- Results that are zero but for the OOR flag read 0 at every offset but that of RES_FLAGS. -/
theorem readOffset_resultOffsets_zero {t : State} {oor : Bool} (h : t.res = { Results.zero with oor := oor }) :
    ∀ off ∈ resultOffsets, readOffset t off = 0 := by
  have hwords : ∀ w ∈ resultOffsets.map (readOffset t), w = 0 := by
    rw [map_readOffset_resultOffsets, h]
    simp [Results.zero]
  exact fun off hoff => hwords _ (List.mem_map_of_mem hoff)

/-- Settles O16: without a table the results written are all zero, RES_FLAGS among them. -/
theorem queryWithoutTable : Obligations.QueryWithoutTable := by
  intro i s hquery hvalid
  obtain ⟨t, hexec, hkeeps, hnoTable, -, -⟩ := exec_query_ends hquery s
  obtain ⟨hdone, hres⟩ := hnoTable hvalid
  have herr : (statusWord t).extractLsb' 4 4 = 4 := by rw [statusWord_err, hdone.1]; rfl
  have hflags : readOffset t 0x54 = 0 := by rw [readOffset_resFlags, hres]; rfl
  have hzero : ∀ off ∈ resultOffsets ++ [0x54], readOffset t off = 0 :=
    List.forall_mem_append.mpr ⟨readOffset_resultOffsets_zero hres, List.forall_mem_singleton.mpr hflags⟩
  exact ⟨t, hexec, hdone, herr, hkeeps, hzero⟩

/-! ### The geometry in the rules' own integers -/

/-- R113's test, side by side. -/
theorem rectOut_iff (s : State) :
    s.rectOut ↔
      (max s.snap.ops.qx0.toInt s.snap.ops.qx1.toInt < 0 ∨ max s.snap.ops.qy0.toInt s.snap.ops.qy1.toInt < 0 ∨
        min s.snap.ops.qx0.toInt s.snap.ops.qx1.toInt > s.builtWidth.toNat - 1 ∨
        min s.snap.ops.qy0.toInt s.snap.ops.qy1.toInt > s.builtHeight.toNat - 1) := by
  unfold State.rectOut spanOut
  omega

/-- R120's test, side by side. -/
theorem rectClipped_iff (s : State) :
    s.rectClipped ↔
      (min s.snap.ops.qx0.toInt s.snap.ops.qx1.toInt < 0 ∨ min s.snap.ops.qy0.toInt s.snap.ops.qy1.toInt < 0 ∨
        max s.snap.ops.qx0.toInt s.snap.ops.qx1.toInt > s.builtWidth.toNat - 1 ∨
        max s.snap.ops.qy0.toInt s.snap.ops.qy1.toInt > s.builtHeight.toNat - 1) := by
  unfold State.rectClipped spanClipped
  omega

theorem spanLow_nonneg (c0 c1 : Word) : 0 ≤ spanLow c0 c1 := le_max_left _ _

theorem spanHigh_nonneg {c0 c1 : Word} {n : Nat} (h : ¬spanOut c0 c1 n) : 0 ≤ spanHigh c0 c1 n := by
  unfold spanOut at h
  unfold spanHigh
  omega

theorem coe_loX (s : State) : (s.loX : Int) = spanLow s.snap.ops.qx0 s.snap.ops.qx1 :=
  Int.toNat_of_nonneg (spanLow_nonneg _ _)

theorem coe_loY (s : State) : (s.loY : Int) = spanLow s.snap.ops.qy0 s.snap.ops.qy1 :=
  Int.toNat_of_nonneg (spanLow_nonneg _ _)

theorem coe_hiX {s : State} (h : ¬s.rectOut) :
    (s.hiX : Int) = spanHigh s.snap.ops.qx0 s.snap.ops.qx1 s.builtWidth.toNat :=
  Int.toNat_of_nonneg (spanHigh_nonneg fun hx => h (.inl hx))

theorem coe_hiY {s : State} (h : ¬s.rectOut) :
    (s.hiY : Int) = spanHigh s.snap.ops.qy0 s.snap.ops.qy1 s.builtHeight.toNat :=
  Int.toNat_of_nonneg (spanHigh_nonneg fun hy => h (.inr hy))

/-- R115: the footprint of an in-range query has a cell. -/
theorem footprint_pos {s : State} (h : ¬s.rectOut) (hdims : s.dimsLegal) : 1 ≤ s.footprint := by
  obtain ⟨hw, -, hh, -⟩ := hdims
  exact Nat.mul_pos (Nat.sub_pos_of_lt (loX_lt_hiX h hw)) (Nat.sub_pos_of_lt (loY_lt_hiY h hh))

/-- R115: the footprint is no larger than the grid. -/
theorem footprint_le (s : State) : s.footprint ≤ s.builtWidth.toNat * s.builtHeight.toNat :=
  Nat.mul_le_mul ((Nat.sub_le _ _).trans (hiX_le s)) ((Nat.sub_le _ _).trans (hiY_le s))

theorem footprint_lt {s : State} (hdims : s.dimsLegal) : s.footprint < 2 ^ 32 := by
  obtain ⟨-, hw, -, hh⟩ := hdims
  calc s.footprint
      ≤ s.builtWidth.toNat * s.builtHeight.toNat := footprint_le s
    _ ≤ 4104 * 4104 := Nat.mul_le_mul hw hh
    _ < 2 ^ 32 := by decide

theorem CommonResults.count_toNat {s : State} {r : Results} (h : CommonResults s r) (hdims : s.dimsLegal) :
    r.count.toNat = s.footprint := by
  rw [h.count, BitVec.toNat_ofNat, Nat.mod_eq_of_lt (footprint_lt hdims)]

theorem CommonResults.resFlagsWord {s : State} {r : Results} (h : CommonResults s r) :
    resFlagsWord r = if r.clipped then 2 else 0 := by
  simp [resFlagsWord_eq, h.oor]

/-- Settles O17: R113's test is `rectOut`, and the results written are zero but for OOR. -/
theorem outOfRangeQuery : Obligations.OutOfRangeQuery := by
  intro i s hquery hvalid hsides
  obtain ⟨t, hexec, hkeeps, -, hout, -⟩ := exec_query_ends hquery s
  obtain ⟨hdone, hres⟩ := hout hvalid ((rectOut_iff s).mpr hsides)
  have hflags : readOffset t 0x54 = 1 := by rw [readOffset_resFlags, hres]; rfl
  exact ⟨t, hexec, hdone, hkeeps, hflags, readOffset_resultOffsets_zero hres⟩

/-- Settles O18: the common results are the clamped indices, whose footprint fits the count register. -/
theorem inRangeCommonResults : Obligations.InRangeCommonResults := by
  intro i s hquery hvalid hdims hrect
  obtain ⟨t, hexec, -, -, -, hin⟩ := exec_query_ends hquery s
  obtain ⟨hdone, hcommon, -⟩ := hin hvalid hrect
  refine ⟨t, hexec, hdone, ?_⟩
  simp only [readOffset_resCount, readOffset_resLowX, readOffset_resHighX, readOffset_resLowY, readOffset_resHighY,
    readOffset_resFlags, hcommon.lowX, hcommon.highX, hcommon.lowY, hcommon.highY, hcommon.count_toNat hdims,
    hcommon.resFlagsWord]
  refine ⟨coe_loX s, coe_hiX hrect, coe_loY s, coe_hiY hrect, rfl, footprint_pos hrect hdims, footprint_le s, ?_, ?_⟩
  · cases t.res.clipped <;> decide
  · rw [← rectClipped_iff, ← hcommon.clipped]
    cases t.res.clipped <;> decide

/-! ### Each kind's own results (R122, R124, R125) -/

theorem ownResults_qsum (s : State) :
    ownResults .qsum s s.queryClamp = { sum := s.fourTerms (vtCell s), nzc := 0, avg := 0 } := by
  simp only [ownResults, ownQsum, lookup_eq]

theorem ownResults_qavg (s : State) :
    ownResults .qavg s s.queryClamp =
      { sum := s.fourTerms (vtCell s), nzc := 0, avg := fdiv64 (s.fourTerms (vtCell s)).toNat s.footprint } := by
  simp only [ownResults, ownQavg, lookup_eq, elementCount_eq]

theorem ownResults_qnzavg (s : State) :
    ownResults .qnzavg s s.queryClamp =
      { sum := s.fourTerms (vtCell s), nzc := s.fourTerms (ntCell s)
        avg := if s.fourTerms (ntCell s) = 0 then 0
          else fdiv64 (s.fourTerms (vtCell s)).toNat (s.fourTerms (ntCell s)).toNat } := by
  simp only [ownResults, ownQnzavg, lookup_eq]

theorem inRangeAnswer_sum (s : State) (i : Instr) : (s.inRangeAnswer i).sum = (ownResults i s s.queryClamp).sum := rfl

theorem inRangeAnswer_nzc (s : State) (i : Instr) : (s.inRangeAnswer i).nzc = (ownResults i s s.queryClamp).nzc := rfl

theorem inRangeAnswer_average (s : State) (i : Instr) :
    (s.inRangeAnswer i).average = (ownResults i s s.queryClamp).avg := average_inRange _ _ _

/-- Settles O20: the value-table lookup, and no other result. -/
theorem qsumResult : Obligations.QsumResult := by
  refine ⟨by decide, fun s => exec_query_ends_with (.inl rfl) ?_⟩
  rw [inRangeAnswer_sum, inRangeAnswer_nzc, inRangeAnswer_average, ownResults_qsum]
  exact ⟨rfl, rfl, rfl⟩

/-- Settles O22: the value-table lookup over the clamped count. -/
theorem qavgResult : Obligations.QavgResult := by
  refine ⟨by decide, fun s => exec_query_ends_with (.inr (.inl rfl)) ?_⟩
  rw [inRangeAnswer_sum, inRangeAnswer_nzc, inRangeAnswer_average, ownResults_qavg]
  exact ⟨rfl, rfl, rfl⟩

/-- Settles O23: both lookups, their division guarded by the non-zero count. -/
theorem qnzavgResult : Obligations.QnzavgResult := by
  refine ⟨by decide, fun s => exec_query_ends_with (.inr (.inr (.inr rfl))) ?_⟩
  rw [inRangeAnswer_sum, inRangeAnswer_nzc, inRangeAnswer_average, ownResults_qnzavg]
  exact ⟨rfl, rfl, fun hzero => if_pos hzero, fun hne => if_neg hne⟩

/-! ### What a query reads (R131, R132) -/

/-- Two states agree on all that a query may read: VALID, the built dimensions, the four coordinates of the snapshot
and the table cells up to the built dimensions. -/
structure SameQueryInputs (s u : State) : Prop where
  valid : u.valid = s.valid
  builtWidth : u.builtWidth = s.builtWidth
  builtHeight : u.builtHeight = s.builtHeight
  qx0 : u.snap.ops.qx0 = s.snap.ops.qx0
  qy0 : u.snap.ops.qy0 = s.snap.ops.qy0
  qx1 : u.snap.ops.qx1 = s.snap.ops.qx1
  qy1 : u.snap.ops.qy1 = s.snap.ops.qy1
  vt : ∀ x ≤ s.builtWidth.toNat, ∀ y ≤ s.builtHeight.toNat, vtCell u x y = vtCell s x y
  nt : ∀ x ≤ s.builtWidth.toNat, ∀ y ≤ s.builtHeight.toNat, ntCell u x y = ntCell s x y

/-- The four cells an in-range lookup reads lie within the built dimensions. -/
theorem lookup_queryClamp_congr {s : State} (hrect : ¬s.rectOut) {cell cell' : Nat → Nat → Word}
    (h : ∀ x ≤ s.builtWidth.toNat, ∀ y ≤ s.builtHeight.toNat, cell' x y = cell x y) :
    lookup cell' s.queryClamp = lookup cell s.queryClamp := by
  have hhiX := hiX_le s
  have hhiY := hiY_le s
  have hloX := (loX_le_hiX hrect).trans hhiX
  have hloY := (loY_le_hiY hrect).trans hhiY
  simp only [lookup_eq, State.fourTerms, h _ hhiX _ hhiY, h _ hloX _ hloY, h _ hloX _ hhiY, h _ hhiX _ hloY]

/-- The kinds read the tables through their lookups alone. -/
theorem ownResults_congr {s u : State} {c : Clamped} (hvt : lookup (vtCell u) c = lookup (vtCell s) c)
    (hnt : lookup (ntCell u) c = lookup (ntCell s) c) (i : Instr) : ownResults i u c = ownResults i s c := by
  cases i with
  | nop | build => rfl
  | qsum => simp only [ownResults, ownQsum, hvt]
  | qavg => simp only [ownResults, ownQavg, hvt]
  | qnzc => simp only [ownResults, ownQnzc, hnt]
  | qnzavg => simp only [ownResults, ownQnzavg, hvt, hnt]

theorem SameQueryInputs.queryRect {s u : State} (h : SameQueryInputs s u) : u.queryRect = s.queryRect := by
  simp only [State.queryRect, canonRect, h.qx0, h.qy0, h.qx1, h.qy1]

theorem SameQueryInputs.rectOut_iff {s u : State} (h : SameQueryInputs s u) : u.rectOut ↔ s.rectOut := by
  rw [← queryOor_iff, ← queryOor_iff]
  simp only [State.queryOor, h.queryRect, State.tableWidth, State.tableHeight, h.builtWidth, h.builtHeight]

theorem SameQueryInputs.inRangeAnswer {s u : State} (h : SameQueryInputs s u) (hrect : ¬s.rectOut) (i : Instr) :
    u.inRangeAnswer i = s.inRangeAnswer i := by
  have hclamp : u.queryClamp = s.queryClamp := by
    simp only [State.queryClamp, h.queryRect, State.tableWidth, State.tableHeight, h.builtWidth, h.builtHeight]
  have hclipped : u.queryClipped = s.queryClipped := by
    simp only [State.queryClipped, h.queryRect, State.tableWidth, State.tableHeight, h.builtWidth, h.builtHeight]
  have hown : ownResults i u s.queryClamp = ownResults i s s.queryClamp :=
    ownResults_congr (lookup_queryClamp_congr hrect h.vt) (lookup_queryClamp_congr hrect h.nt) i
  simp only [State.inRangeAnswer, hclamp, hclipped, hown]

/-- Queries that take the same of the three ways, with the same in-range answer, give the same results and code. -/
theorem QueryEnds.same_answer {s t u v : State} {r r' : Results} (ht : QueryEnds s t (· = r))
    (hv : QueryEnds u v (· = r')) (hvalid : u.valid = s.valid) (hrect : u.rectOut ↔ s.rectOut)
    (hin : ¬s.rectOut → r' = r) : v.res = t.res ∧ v.err = t.err := by
  obtain ⟨-, tnoTable, tout, tin⟩ := ht
  obtain ⟨-, vnoTable, vout, vin⟩ := hv
  rw [hvalid] at vnoTable vout vin
  rw [hrect] at vout vin
  cases hs : s.valid with
  | false =>
    obtain ⟨⟨terr, -, -⟩, tres⟩ := tnoTable hs
    obtain ⟨⟨verr, -, -⟩, vres⟩ := vnoTable hs
    exact ⟨vres.trans tres.symm, verr.trans terr.symm⟩
  | true =>
    by_cases ho : s.rectOut
    · obtain ⟨⟨terr, -, -⟩, tres⟩ := tout hs ho
      obtain ⟨⟨verr, -, -⟩, vres⟩ := vout hs ho
      exact ⟨vres.trans tres.symm, verr.trans terr.symm⟩
    · obtain ⟨⟨terr, -, -⟩, -, tres⟩ := tin hs ho
      obtain ⟨⟨verr, -, -⟩, -, vres⟩ := vin hs ho
      exact ⟨vres.trans ((hin ho).trans tres.symm), verr.trans terr.symm⟩

/-- Settles O27: the geometry reads the coordinates and the built dimensions, the lookups the cells up to them. -/
theorem queriesArePure : Obligations.QueriesArePure := by
  intro i s u hquery hvalid hw hh hx0 hy0 hx1 hy1 hcells
  have hsame : SameQueryInputs s u :=
    ⟨hvalid, hw, hh, hx0, hy0, hx1, hy1, fun x hx y hy => (hcells x hx y hy).1, fun x hx y hy => (hcells x hx y hy).2⟩
  obtain ⟨t, ht, htends⟩ := exec_query_ends hquery s
  obtain ⟨v, hv, hvends⟩ := exec_query_ends hquery u
  obtain ⟨hres, herr⟩ := htends.same_answer hvends hvalid hsame.rectOut_iff fun hrect => hsame.inRangeAnswer hrect i
  exact ⟨t, v, ht, hv, hres, herr, htends.1, hvends.1⟩

end Sys2Proof.Machine
end

section
/-! A whole BUILD (41_build.md): its start and finish steps, the run of cell steps between them with the cursor's place
in the traversal, and the tables that stand at its end; the lemmas, then the statements of that chapter. -/

namespace Sys2Proof.Machine

open Sys2Proof

/-! ### Engine runs -/

theorem engineRun_cons {s t : State} (h : engineStep s = .next t) (n : Nat) : engineRun (n + 1) s = engineRun n t := by
  rw [engineRun, h]

theorem engineRun_snoc {n : Nat} {s t : State} (h : engineRun n s = .next t) : engineRun (n + 1) s = engineStep t := by
  induction n generalizing s with
  | zero =>
    obtain rfl : s = t := Host.Outcome.next.inj h
    simp only [engineRun]
    cases engineStep s <;> rfl
  | succ n ih =>
    cases hstep : engineStep s with
    | next u =>
      rw [engineRun_cons hstep] at h ⊢
      exact ih h
    | fault f => cases f
    | refused r => simp [engineRun, hstep] at h

/-! ### The start and the finish step (R100, R105) -/

/-- Settles O11: when the checks pass, BUILD's step is `buildStart`, whose tables are the zero borders. -/
theorem buildStarts : Obligations.BuildStarts := by
  intro s hpass
  have ⟨_, hw, hh, _, _⟩ := hpass
  refine ⟨_, execBuild_passes hpass, rfl, rfl, rfl, rfl, rfl, rfl, rfl, rfl, keepsBesideBuild_start _ _ s,
    fun x y => ?_⟩
  have hborder : (y = 0 ∧ x ≤ s.runWidth ∨ x = 0 ∧ y ≤ s.runHeight) ↔
      (y = 0 ∧ (x : Int) ≤ s.snap.ops.width.toInt ∨ x = 0 ∧ (y : Int) ≤ s.snap.ops.height.toInt) := by
    rw [runWidth_eq, runHeight_eq]
    omega
  simp only [buildStart_vt, buildStart_nt, Table.read_border, hborder]
  split_ifs <;> rfl

/-- The engine's step past the last row is the finish step. -/
theorem engineStep_finish {s : State} (he : s.eng = .building) (hy : s.cy = s.runHeight) :
    engineStep s = .next (buildFinish s) :=
  (engineStep_building he).trans (buildStep_finish hy)

/-- Settles O13: past the last row the engine's step is `buildFinish`, and the running dimensions fit 32 bits. -/
theorem buildFinishStep : Obligations.BuildFinishStep := by
  intro s he hy
  exact ⟨buildFinish s, engineStep_finish he hy, buildFinish_width s, buildFinish_height s, rfl, ⟨rfl, rfl, rfl⟩, rfl,
    rfl, keepsBesideBuild_finish s⟩

/-! ### The run of cell steps (R101 to R103) -/

/-- The number of grid cells of the running BUILD. -/
def State.cellCount (s : State) : Nat := s.runWidth * s.runHeight

/-- The number of grid cells before the cursor in the traversal. -/
def State.cellsDone (s : State) : Nat := s.cy * s.runWidth + s.cx

/-- A BUILD is running and its cursor is where R49 allows it. -/
structure InBuild (s : State) : Prop where
  eng : s.eng = .building
  cursor : CursorInRange s

theorem inBuild_start {s : State} (h : s.buildPasses) : InBuild (buildStart s.runWidth s.runHeight s) :=
  ⟨rfl, cursor_start h⟩

theorem inBuild_cell {s : State} (h : InBuild s) (hx : s.cx < s.runWidth) (hy : s.cy < s.runHeight) :
    InBuild (buildCell s) :=
  ⟨h.eng, cursor_cell hx hy⟩

theorem cellCount_cell (s : State) : (buildCell s).cellCount = s.cellCount := rfl

/-- A cell step moves the cursor one place on. -/
theorem cellsDone_cell (s : State) : (buildCell s).cellsDone = s.cellsDone + 1 := by
  simp only [State.cellsDone, (keepsBesideBuild_cell s).runWidth, buildCell_cx, buildCell_cy]
  split
  · rw [Nat.succ_mul]
    omega
  · rfl

theorem cellsDone_lt {s : State} (hx : s.cx < s.runWidth) (hy : s.cy < s.runHeight) : s.cellsDone < s.cellCount := by
  calc s.cy * s.runWidth + s.cx
      < (s.cy + 1) * s.runWidth := by rw [Nat.succ_mul]; omega
    _ ≤ s.runHeight * s.runWidth := Nat.mul_le_mul_right _ hy
    _ = s.cellCount := Nat.mul_comm _ _

/-- While a cell is left the cursor is inside the grid. -/
theorem InBuild.inside {s : State} (h : InBuild s) (hlt : s.cellsDone < s.cellCount) :
    s.cx < s.runWidth ∧ s.cy < s.runHeight := by
  refine cursor_inside h.cursor fun hy => ?_
  have : s.cellCount ≤ s.cellsDone := by
    unfold State.cellCount State.cellsDone
    rw [hy, Nat.mul_comm]
    omega
  omega

/-- Once no cell is left the cursor is just past the last one. -/
theorem InBuild.past {s : State} (h : InBuild s) (hall : s.cellsDone = s.cellCount) :
    s.cx = 0 ∧ s.cy = s.runHeight := by
  rcases h.cursor with ⟨hx, hy⟩ | hend
  · exact absurd hall (cellsDone_lt hx hy).ne
  · exact hend

theorem InBuild.cellsDone_le {s : State} (h : InBuild s) : s.cellsDone ≤ s.cellCount := by
  by_contra hgt
  rcases h.cursor with ⟨hx, hy⟩ | ⟨hx, hy⟩
  · exact hgt (cellsDone_lt hx hy).le
  · refine hgt ?_
    rw [State.cellsDone, hx, hy, State.cellCount, Nat.mul_comm]
    rfl

/-- As long as cells are left, engine steps are cell steps (R91). -/
theorem InBuild.engineRun_cells {s : State} (h : InBuild s) {k : Nat} (hk : s.cellsDone + k ≤ s.cellCount) :
    engineRun k s = .next (buildCell^[k] s) ∧ InBuild (buildCell^[k] s) ∧
      (buildCell^[k] s).cellsDone = s.cellsDone + k := by
  induction k generalizing s with
  | zero => exact ⟨rfl, h, rfl⟩
  | succ k ih =>
    obtain ⟨hx, hy⟩ := h.inside (by omega)
    have hdone := cellsDone_cell s
    obtain ⟨hrun, hin, hplace⟩ := ih (inBuild_cell h hx hy) (by rw [cellCount_cell]; omega)
    exact ⟨(engineRun_cons (engineStep_cell h.eng hy) k).trans hrun, hin, by rw [Function.iterate_succ_apply]; omega⟩

theorem keepsBesideBuild_refl (s : State) : KeepsBesideBuild s s :=
  ⟨rfl, rfl, rfl, rfl, rfl, rfl, fun _ => rfl, rfl, rfl, rfl, rfl, rfl⟩

theorem keepsBesideBuild_cells (k : Nat) (s : State) : KeepsBesideBuild s (buildCell^[k] s) := by
  induction k generalizing s with
  | zero => exact keepsBesideBuild_refl s
  | succ k ih => exact (keepsBesideBuild_cell s).trans (ih (buildCell s))

theorem valid_cells (k : Nat) (s : State) : (buildCell^[k] s).valid = s.valid := by
  induction k generalizing s with
  | zero => rfl
  | succ k ih => exact ih (buildCell s)

theorem cellCount_cells (k : Nat) (s : State) : (buildCell^[k] s).cellCount = s.cellCount := by
  have h := keepsBesideBuild_cells k s
  rw [State.cellCount, h.runWidth, h.runHeight, State.cellCount]

/-! ### The tables of the whole run (R104, R106) -/

theorem KeepsBesideBuild.gridOf {s t : State} (h : KeepsBesideBuild s t) : t.gridOf = s.gridOf := by
  funext x y
  rw [State.gridOf, h.grid, h.snap, h.runWidth, State.gridOf]

/-- The byte a cell step reads is the grid's own at the cursor. -/
theorem setCell_gridOf (s : State) : setCell s.gridOf s.cx s.cy (cellByte s) = s.gridOf := by
  funext x y
  unfold setCell
  split
  · rename_i hxy
    rw [hxy.1, hxy.2]
    rfl
  · rfl

/-- Cell steps keep the tables exact up to the frontier for the grid in the grid memory. -/
theorem InBuild.partialTables_cells {s : State} (h : InBuild s) (hw : s.runWidth ≤ 4104) (hh : s.runHeight ≤ 4104)
    (hp : PartialTables s s.gridOf) {k : Nat} (hk : s.cellsDone + k ≤ s.cellCount) :
    PartialTables (buildCell^[k] s) s.gridOf := by
  induction k generalizing s with
  | zero => exact hp
  | succ k ih =>
    obtain ⟨hx, hy⟩ := h.inside (by omega)
    have hcell := partialTables_cell hx hy hw hh hp
    rw [setCell_gridOf, ← (keepsBesideBuild_cell s).gridOf] at hcell
    have hdone := cellsDone_cell s
    have hrest := ih (inBuild_cell h hx hy) hw hh hcell (by rw [cellCount_cell]; omega)
    rwa [(keepsBesideBuild_cell s).gridOf] at hrest

/-- R5: a BUILD that passes its checks has dimensions of at most 4104. -/
theorem runDims_le {s : State} (hcfg : s.cfg.legal = true) (hpass : s.buildPasses) :
    s.runWidth ≤ 4104 ∧ s.runHeight ≤ 4104 := by
  have hdims := buildPasses_dims hpass
  simp only [Config.legal, Bool.and_eq_true, decide_eq_true_eq] at hcfg
  omega

/-- After the EXEC step and `j` cell steps the BUILD begun in `s` stands at grid cell `j`, its tables exact so far. -/
structure BuildAt (s : State) (j : Nat) (t : State) : Prop where
  inBuild : InBuild t
  cellsDone : t.cellsDone = j
  valid : t.valid = false
  tables : PartialTables t s.gridOf
  keeps : KeepsBesideBuild s t

theorem buildAt_start {s : State} (hpass : s.buildPasses) : BuildAt s 0 (buildStart s.runWidth s.runHeight s) :=
  ⟨inBuild_start hpass, Nat.zero_mul _, rfl, partialTables_start s _, keepsBesideBuild_start _ _ s⟩

theorem engineRun_buildAt {s : State} (hcfg : s.cfg.legal = true) (he : s.eng = .exec) (hop : s.snap.op = .legal .build)
    (hpass : s.buildPasses) {j : Nat} (hj : j ≤ s.runWidth * s.runHeight) :
    ∃ t, engineRun (j + 1) s = .next t ∧ BuildAt s j t := by
  obtain ⟨hw, hh⟩ := runDims_le hcfg hpass
  obtain ⟨hin, hdone, hvalid, htables, hkeeps⟩ := buildAt_start hpass
  have hcount : (buildStart s.runWidth s.runHeight s).cellCount = s.runWidth * s.runHeight := rfl
  obtain ⟨hrun, hend, hplace⟩ := hin.engineRun_cells (k := j) (by omega)
  rw [← hkeeps.gridOf] at htables
  have hexact := hin.partialTables_cells hw hh htables (k := j) (by omega)
  rw [hkeeps.gridOf] at hexact
  have hstart : engineStep s = .next (buildStart s.runWidth s.runHeight s) :=
    (engineStep_exec he hop).trans (execBuild_passes hpass)
  exact ⟨_, (engineRun_cons hstart j).trans hrun, hend, by omega, (valid_cells j _).trans hvalid, hexact,
    hkeeps.trans (keepsBesideBuild_cells j _)⟩

/-- Settles O14: W*H cell steps carry the exact tables from the start step's border to the last cell. -/
theorem buildComputesPrefixSums : Obligations.BuildComputesPrefixSums := by
  intro s hcfg he hop hpass
  constructor
  · obtain ⟨t, hrun, hin, hdone, -, htables, hkeeps⟩ := engineRun_buildAt hcfg he hop hpass le_rfl
    have hall : t.cellsDone = t.cellCount := by rw [hdone, State.cellCount, hkeeps.runWidth, hkeeps.runHeight]
    obtain ⟨hx, hy⟩ := hin.past hall
    have hfinish := (engineRun_snoc hrun).trans (engineStep_finish hin.eng hy)
    rw [← hkeeps.runWidth, ← hkeeps.runHeight] at hfinish ⊢
    exact ⟨buildFinish t, hfinish, ⟨rfl, rfl, rfl⟩, rfl, buildFinish_width t, buildFinish_height t,
      tablesOf_finish hx hy htables, hkeeps.trans (keepsBesideBuild_finish t)⟩
  · intro k hpos hk
    obtain ⟨j, rfl⟩ := Nat.exists_eq_add_one.mpr hpos
    obtain ⟨t, hrun, hat⟩ := engineRun_buildAt hcfg he hop hpass (j := j) (by omega)
    exact ⟨t, hrun, hat.inBuild.eng, hat.valid⟩

end Sys2Proof.Machine
end

section
/-! The invariant of the machine (10_state.md, sections 5 to 8): it holds at reset, every step keeps it, and what it
says of the tables; the lemmas, then the statements about the whole machine's states. -/

namespace Sys2Proof.Machine

open Sys2Proof

/-! ### Canonical forms (log entries 3 and 4) -/

theorem EngineEffect.canonicalForms {s t : State} (he : EngineEffect s t) (h : CanonicalForms s) :
    CanonicalForms t := by
  obtain ⟨hgrid, hvt, hnt⟩ := h
  cases he with
  | buildStarts => exact ⟨hgrid, Table.wf_border _ _, Table.wf_border _ _⟩
  | cell => exact ⟨hgrid, Table.wf_write hvt _ _ _, Table.wf_write hnt _ _ _⟩
  | nop | illegal | buildFails | query | finish => exact ⟨hgrid, hvt, hnt⟩

theorem Effect.canonicalForms {s t : State} (he : Effect s t) (h : CanonicalForms s) : CanonicalForms t := by
  have ⟨hgrid, hvt, hnt⟩ := h
  cases he with
  | engine t _ _ he => exact he.canonicalForms h
  | gridWrite a b => exact ⟨Memory.wf_write hgrid a b, hvt, hnt⟩
  | reset => exact ⟨hgrid, rfl, rfl⟩
  | stay | operands | ctrl | status | accepted | dropped => exact ⟨hgrid, hvt, hnt⟩

/-- Settles O40: the tables and the grid memory change only by writes of single cells, to borders or to nothing. -/
theorem stepKeepsCanonicalForms : Obligations.StepKeepsCanonicalForms := by
  intro s t h hstep
  obtain ⟨-, _, _, _, he⟩ := step_effect hstep
  exact he.canonicalForms ⟨h.grid, h.vt, h.nt⟩

/-! ### The reset state -/

/-- A state at its reset values whose tables list nothing meets the invariant. -/
theorem AtReset.inv {s : State} (h : AtReset s) (hcfg : s.cfg.legal = true) (hgrid : s.grid.wf = true) (hvt : s.vt = [])
    (hnt : s.nt = []) : s.Inv where
  config := hcfg
  forms := ⟨hgrid, by rw [hvt]; rfl, by rw [hnt]; rfl⟩
  vtStorage := fun x y v hv => by rw [hvt] at hv; cases hv
  ntStorage := fun x y v hv => by rw [hnt] at hv; cases hv
  flags := by rw [h.res]; rfl
  busy := fun he => absurd h.eng he
  op := fun he => absurd h.eng he
  reset := fun _ => h
  building := fun he => absurd (h.eng.symm.trans he) (by decide)
  built := fun hv => absurd (h.valid.symm.trans hv) (by decide)

theorem atReset_reset : AtReset State.reset := ⟨rfl, rfl, rfl, rfl, rfl, rfl, rfl, rfl, rfl, rfl⟩

theorem atReset_resetPsa (level : Bool) (s : State) : AtReset (resetPsa level s) :=
  ⟨rfl, rfl, rfl, rfl, rfl, rfl, rfl, rfl, rfl, rfl⟩

/-- The grid memory, the host and the turns to come are not the PSA's, so reset says nothing of them. -/
theorem AtReset.outside {s : State} (h : AtReset s) (m : Memory) (hs : List HostOp) (rd : List Word) (sc : List Turn) :
    AtReset { s with grid := m, host := hs, reads := rd, sched := sc } :=
  ⟨h.ie, h.eng, h.valid, h.done, h.drop, h.err, h.ops, h.res, h.builtWidth, h.builtHeight⟩

/-- Settles O47: `State.reset` is at the reset values with empty tables. -/
theorem resetMeetsInvariant : Obligations.ResetMeetsInvariant :=
  atReset_reset.inv (by decide) rfl rfl rfl

/-! ### Steps that leave the engine and the tables alone -/

/-- The engine, its snapshot and cursor, the tables and all that describes them, and the results are as before. -/
structure SameMachine (s t : State) : Prop where
  cfg : t.cfg = s.cfg
  eng : t.eng = s.eng
  valid : t.valid = s.valid
  res : t.res = s.res
  builtWidth : t.builtWidth = s.builtWidth
  builtHeight : t.builtHeight = s.builtHeight
  vt : t.vt = s.vt
  nt : t.nt = s.nt
  snap : t.snap = s.snap
  cx : t.cx = s.cx
  cy : t.cy = s.cy

theorem SameMachine.buildInv {s t : State} (c : SameMachine s t) (h : BuildInv s) : BuildInv t where
  valid := c.valid.trans h.valid
  op := by rw [c.snap]; exact h.op
  passes := by unfold State.buildPasses; rw [c.snap, c.cfg]; exact h.passes
  cursor := by simp only [CursorInRange, runWidth_eq, runHeight_eq, c.snap, c.cx, c.cy]; exact h.cursor
  tables := by
    simp only [PartialTables, runWidth_eq, runHeight_eq, c.snap, c.cx, c.cy, c.vt, c.nt]
    exact h.tables

theorem SameMachine.builtInv {s t : State} (c : SameMachine s t) (h : BuiltInv s) : BuiltInv t where
  dims := by unfold State.dimsLegal; rw [c.builtWidth, c.builtHeight]; exact h.dims
  width := by rw [c.builtWidth, c.cfg]; exact h.width
  height := by rw [c.builtHeight, c.cfg]; exact h.height
  tables := by simp only [TablesOf, c.builtWidth, c.builtHeight, c.vt, c.nt]; exact h.tables

theorem State.Inv.sameMachine {s t : State} (h : s.Inv) (c : SameMachine s t) (hforms : CanonicalForms t)
    (hbusy : t.eng ≠ .idle → t.done = false) (hreset : t.rst = true → AtReset t) : t.Inv where
  config := by rw [c.cfg]; exact h.config
  forms := hforms
  vtStorage := by rw [c.vt, c.cfg]; exact h.vtStorage
  ntStorage := by rw [c.nt, c.cfg]; exact h.ntStorage
  flags := by rw [c.res]; exact h.flags
  busy := hbusy
  op := by rw [c.eng, c.snap]; exact h.op
  reset := hreset
  building := by rw [c.eng]; exact fun he => c.buildInv (h.building he)
  built := by rw [c.valid]; exact fun hv => c.builtInv (h.built hv)

/-- The host's program, its reads and the turns to come are free in the invariant. -/
theorem State.Inv.hostSide {s : State} (h : s.Inv) (hs : List HostOp) (rd : List Word) (sc : List Turn) :
    State.Inv { s with host := hs, reads := rd, sched := sc } := by
  have hsame : SameMachine s { s with host := hs, reads := rd, sched := sc } :=
    ⟨rfl, rfl, rfl, rfl, rfl, rfl, rfl, rfl, rfl, rfl, rfl⟩
  exact h.sameMachine hsame ⟨h.forms.grid, h.forms.vt, h.forms.nt⟩ h.busy fun hrst =>
    (h.reset hrst).outside s.grid hs rd sc

/-! ### Steps of the engine -/

/-- R86: a completion, whatever it writes into the result registers, keeps the tables. -/
theorem State.Inv.complete {s : State} (h : s.Inv) (hrst : s.rst = false) (code : Completion) {r : Results}
    (hr : (r.oor && r.clipped) = false) : (complete code { s with res := r }).Inv where
  config := h.config
  forms := ⟨h.forms.grid, h.forms.vt, h.forms.nt⟩
  vtStorage := h.vtStorage
  ntStorage := h.ntStorage
  flags := hr
  busy := fun he => absurd rfl he
  op := fun he => absurd rfl he
  reset := fun ht => absurd (hrst.symm.trans ht) (by decide)
  building := fun he => by cases he
  built := fun hv =>
    have hb := h.built hv
    ⟨hb.dims, hb.width, hb.height, hb.tables⟩

theorem State.Inv.accept {s : State} (h : s.Inv) (hrst : s.rst = false) (w : Word) : (accept w s).Inv where
  config := h.config
  forms := ⟨h.forms.grid, h.forms.vt, h.forms.nt⟩
  vtStorage := h.vtStorage
  ntStorage := h.ntStorage
  flags := h.flags
  busy := fun _ => rfl
  op := fun _ => rfl
  reset := fun ht => absurd (hrst.symm.trans ht) (by decide)
  building := fun he => by cases he
  built := fun hv =>
    have hb := h.built hv
    ⟨hb.dims, hb.width, hb.height, hb.tables⟩

theorem inStorage_border {w h m : Nat} (hw : w ≤ m) (hh : h ≤ m) : InStorage (Table.border w h) m := by
  intro x y v hread
  rw [Table.read_border] at hread
  split at hread
  · omega
  · cases hread

theorem inStorage_write {t : Table} {m x y : Nat} (h : InStorage t m) (hx : x ≤ m) (hy : y ≤ m) (v : Word) :
    InStorage (t.write x y v) m := by
  intro x' y' v' hread
  rw [Table.read_write] at hread
  split at hread
  · omega
  · exact h x' y' v' hread

/-- R100. -/
theorem State.Inv.buildStart {s : State} (h : s.Inv) (hrst : s.rst = false) (he : s.eng = .exec)
    (hop : s.snap.op = .legal .build) (hpass : s.buildPasses) : (buildStart s.runWidth s.runHeight s).Inv where
  config := h.config
  forms := ⟨h.forms.grid, Table.wf_border _ _, Table.wf_border _ _⟩
  vtStorage := by
    obtain ⟨-, hw, -, hh⟩ := buildPasses_dims hpass
    exact inStorage_border hw hh
  ntStorage := by
    obtain ⟨-, hw, -, hh⟩ := buildPasses_dims hpass
    exact inStorage_border hw hh
  flags := h.flags
  busy := fun _ => h.busy (by simp [he])
  op := fun _ => h.op (by simp [he])
  reset := fun ht => absurd (hrst.symm.trans ht) (by decide)
  building := fun _ => ⟨rfl, hop, hpass, cursor_start hpass, s.gridOf, partialTables_start s _⟩
  built := fun hv => by cases hv

/-- R101 to R103. -/
theorem State.Inv.buildCell {s : State} (h : s.Inv) (hrst : s.rst = false) (he : s.eng = .building)
    (hy : s.cy ≠ s.runHeight) : (buildCell s).Inv := by
  obtain ⟨hvalid, hop, hpass, hcursor, g, htables⟩ := h.building he
  obtain ⟨hx, hy⟩ := cursor_inside hcursor hy
  obtain ⟨-, hw, -, hh⟩ := buildPasses_dims hpass
  obtain ⟨hw', hh'⟩ := runDims_le h.config hpass
  have hx1 : s.cx + 1 ≤ s.cfg.maxDim := hx.trans_le hw
  have hy1 : s.cy + 1 ≤ s.cfg.maxDim := hy.trans_le hh
  exact
    { config := h.config
      forms := (EngineEffect.cell he hy.ne).canonicalForms h.forms
      vtStorage := inStorage_write h.vtStorage hx1 hy1 _
      ntStorage := inStorage_write h.ntStorage hx1 hy1 _
      flags := h.flags
      busy := h.busy
      op := h.op
      reset := fun ht => absurd (hrst.symm.trans ht) (by decide)
      building := fun _ => ⟨hvalid, hop, hpass, cursor_cell hx hy, _, partialTables_cell hx hy hw' hh' htables⟩
      built := fun hv => absurd (hvalid.symm.trans hv) (by decide) }

/-- What stands once a BUILD has finished (R105, R106). -/
theorem BuildInv.builtInv_finish {s : State} (h : BuildInv s) (hcfg : s.cfg.legal = true) (hy : s.cy = s.runHeight) :
    BuiltInv (buildFinish s) := by
  obtain ⟨hw, hwm, hh, hhm⟩ := buildPasses_dims h.passes
  obtain ⟨hw', hh'⟩ := runDims_le hcfg h.passes
  obtain ⟨g, htables⟩ := h.tables
  have hx : s.cx = 0 := by
    rcases h.cursor with ⟨-, hlt⟩ | ⟨hx, -⟩
    · exact absurd hy hlt.ne
    · exact hx
  have hfull := tablesOf_finish hx hy htables
  refine ⟨?_, ?_, ?_, g, ?_⟩
  · rw [State.dimsLegal, buildFinish_width, buildFinish_height]
    exact ⟨hw, hw', hh, hh'⟩
  · rwa [buildFinish_width]
  · rwa [buildFinish_height]
  · rw [buildFinish_width, buildFinish_height]
    exact hfull

/-- R105. -/
theorem State.Inv.buildFinish {s : State} (h : s.Inv) (hrst : s.rst = false) (he : s.eng = .building)
    (hy : s.cy = s.runHeight) : (buildFinish s).Inv where
  config := h.config
  forms := ⟨h.forms.grid, h.forms.vt, h.forms.nt⟩
  vtStorage := h.vtStorage
  ntStorage := h.ntStorage
  flags := h.flags
  busy := fun hb => absurd rfl hb
  op := fun hb => absurd rfl hb
  reset := fun ht => absurd (hrst.symm.trans ht) (by decide)
  building := fun hb => by cases hb
  built := fun _ => (h.building he).builtInv_finish h.config hy

theorem EngineEffect.inv {s t : State} (he : EngineEffect s t) (h : s.Inv) (hrst : s.rst = false) : t.Inv := by
  cases he with
  | nop | illegal | buildFails => exact h.complete hrst _ h.flags
  | query _ code r _ _ _ _ hr => exact h.complete hrst code hr
  | buildStarts he hop hpass => exact h.buildStart hrst he hop hpass
  | cell he hy => exact h.buildCell hrst he hy
  | finish he hy => exact h.buildFinish hrst he hy

/-! ### Every step -/

theorem Effect.inv {s t : State} (he : Effect s t) (h : s.Inv) : t.Inv := by
  have hforms := he.canonicalForms h.forms
  have released {u : State} (hrst : s.rst = false) (hu : u.rst = s.rst) : u.rst = true → AtReset u := fun hr => by
    rw [hu, hrst] at hr
    cases hr
  cases he with
  | stay => exact h
  | operands _ hrst | ctrl _ hrst | dropped hrst =>
    exact h.sameMachine ⟨rfl, rfl, rfl, rfl, rfl, rfl, rfl, rfl, rfl, rfl, rfl⟩ hforms h.busy (released hrst rfl)
  | status v hrst =>
    refine h.sameMachine ⟨rfl, rfl, rfl, rfl, rfl, rfl, rfl, rfl, rfl, rfl, rfl⟩ hforms (fun hb => ?_)
      (released hrst rfl)
    rw [writeStatus_done, h.busy hb]
    rfl
  | accepted w hrst => exact h.accept hrst w
  | gridWrite a b =>
    exact h.sameMachine ⟨rfl, rfl, rfl, rfl, rfl, rfl, rfl, rfl, rfl, rfl, rfl⟩ hforms h.busy fun hrst =>
      (h.reset hrst).outside (s.grid.write a b) s.host s.reads s.sched
  | reset level => exact (atReset_resetPsa level s).inv h.config h.forms.grid rfl rfl
  | engine t hrst _ he => exact he.inv h hrst

/-- Settles O48: each effect a step can have keeps the invariant. -/
theorem stepKeepsInvariant : Obligations.StepKeepsInvariant := by
  intro s t h hstep
  obtain ⟨-, hs, rd, sc, he⟩ := step_effect hstep
  exact he.inv (h.hostSide hs rd sc)

/-! ### Who writes the tables (R45, R109) -/

/-- The tables, VALID and the built dimensions are as before. -/
structure KeepsTables (s t : State) : Prop where
  vt : t.vt = s.vt
  nt : t.nt = s.nt
  valid : t.valid = s.valid
  builtWidth : t.builtWidth = s.builtWidth
  builtHeight : t.builtHeight = s.builtHeight

theorem KeepsResultState.keepsTables {s t : State} (h : KeepsResultState s t) : KeepsTables s t :=
  ⟨h.vt, h.nt, h.valid, h.builtWidth, h.builtHeight⟩

/-- A BUILD whose checks pass is in the snapshot. -/
def State.passingBuild (s : State) : Prop := s.snap.op = .legal .build ∧ s.buildPasses

theorem EngineEffect.keepsTables_or_passingBuild {s t : State} (he : EngineEffect s t) (h : s.Inv) :
    KeepsTables s t ∨ s.passingBuild := by
  cases he with
  | nop | illegal | buildFails | query => exact .inl ⟨rfl, rfl, rfl, rfl, rfl⟩
  | buildStarts _ hop hpass => exact .inr ⟨hop, hpass⟩
  | cell he | finish he =>
    obtain ⟨-, hop, hpass, -, -⟩ := h.building he
    exact .inr ⟨hop, hpass⟩

/-- The engine's turn changes them only where reset is released and the engine runs a BUILD that passed. -/
theorem engineTurn_tables {s t : State} (h : s.Inv) (hturn : engineTurn s = .next t) :
    KeepsTables s t ∨ (s.rst = false ∧ s.eng ≠ .idle ∧ s.passingBuild) := by
  have hstays : KeepsTables s s := ⟨rfl, rfl, rfl, rfl, rfl⟩
  cases hrst : s.rst with
  | true =>
    cases (engineTurn_reset hrst).symm.trans hturn
    exact .inl hstays
  | false =>
    rw [engineTurn_released hrst] at hturn
    by_cases hidle : s.eng = .idle
    · cases (engineStep_idle hidle).symm.trans hturn
      exact .inl hstays
    · exact ((engineStep_cases hidle hturn).keepsTables_or_passingBuild h).imp_right fun hp => ⟨rfl, hidle, hp⟩

theorem takeTurn_tables {turn : Turn} {s t : State} (h : s.Inv) (hturn : takeTurn turn s = .next t) :
    KeepsTables s t ∨ (turn = .engine ∧ s.rst = false ∧ s.eng ≠ .idle ∧ s.passingBuild) ∨
      ∃ level, turn = .setReset level := by
  cases turn with
  | host => exact .inl (hostTurn_keepsResultState hturn).keepsTables
  | engine => exact (engineTurn_tables h hturn).imp_right fun hb => .inl ⟨rfl, hb⟩
  | gridWrite a b =>
    cases hturn
    exact .inl ⟨rfl, rfl, rfl, rfl, rfl⟩
  | setReset level => exact .inr (.inr ⟨level, rfl⟩)

theorem KeepsTables.not_changed {s t : State} (h : KeepsTables s t) :
    ¬(t.vt ≠ s.vt ∨ t.nt ≠ s.nt ∨ t.valid ≠ s.valid ∨ t.builtWidth ≠ s.builtWidth ∨ t.builtHeight ≠ s.builtHeight) := by
  simp [h.vt, h.nt, h.valid, h.builtWidth, h.builtHeight]

/-- Settles O42: of the turns only the engine's and the reset input's change the tables, and of the engine's steps only
those of a BUILD that passed its checks. -/
theorem onlyBuildWritesTables : Obligations.OnlyBuildWritesTables := by
  intro s t h hstep hchanged
  cases hsched : s.sched with
  | nil =>
    rw [step_default h.config hsched] at hstep
    obtain hsame | ⟨-, hrst, hbusy, hop, hpass⟩ | ⟨level, hreset⟩ := takeTurn_tables h hstep
    · exact absurd hchanged hsame.not_changed
    · exact .inl ⟨.inr ⟨hsched, (engineReady_iff s).mpr ⟨hbusy, hrst⟩⟩, hrst, hbusy, hop, hpass⟩
    · exact absurd hreset (defaultTurn_ne_setReset s level)
  | cons turn rest =>
    rw [step_turn h.config hsched] at hstep
    have hrest := h.hostSide s.host s.reads rest
    obtain hsame | ⟨rfl, hrst, hbusy, hop, hpass⟩ | ⟨level, rfl⟩ := takeTurn_tables hrest hstep
    · exact absurd hchanged hsame.not_changed
    · exact .inl ⟨.inl ⟨rest, hsched⟩, hrst, hbusy, hop, hpass⟩
    · exact .inr ⟨level, rest, rfl⟩

/-! ### Built tables (R45) -/

/-- Cells of at most `c` sum to at most `c` for each cell of the grid. -/
theorem prefixSum_le {f : Nat → Nat → Nat} {c x y w h : Nat} (hf : ∀ i j, f i j ≤ c) (hx : x ≤ w) (hy : y ≤ h) :
    rectSum f 0 x 0 y ≤ c * (w * h) :=
  (rectSum_le hf 0 x 0 y).trans (Nat.mul_le_mul_left c (Nat.mul_le_mul hx hy))

/-- R8: the largest sum over legal dimensions fits 32 bits. -/
theorem fullSum_lt {s : State} (h : s.dimsLegal) : 255 * (s.builtWidth.toNat * s.builtHeight.toNat) < 2 ^ 32 := by
  obtain ⟨-, hw, -, hh⟩ := h
  have : s.builtWidth.toNat * s.builtHeight.toNat ≤ 4104 * 4104 := Nat.mul_le_mul hw hh
  omega

/-- Settles O43: the cells are sums from the corner, which grow with either index and are bounded cell by cell. -/
theorem builtTablesAreMonotonic : Obligations.BuiltTablesAreMonotonic := by
  intro s h hvalid x y x' y' hx hy hx' hy'
  obtain ⟨hdims, -, -, g, htables⟩ := h.built hvalid
  obtain ⟨hvt, hnt⟩ := htables x (hx.trans hx') y (hy.trans hy')
  obtain ⟨hvt', hnt'⟩ := htables x' hx' y' hy'
  rw [vtCell_holds hvt, vtCell_holds hvt', ntCell_holds hnt, ntCell_holds hnt', Nat.mul_assoc]
  have hcount := prefixSum_le (nonZeroOf_le g) hx' hy'
  rw [Nat.one_mul] at hcount
  exact ⟨prefix_mono _ hx hy, prefix_mono _ hx hy, prefixSum_le (valueOf_le g) hx' hy', fullSum_lt hdims, hcount⟩

end Sys2Proof.Machine
end

section
/-! Progress (40_command.md section 1, 70_reset_and_hazards.md section 4): every running command completes within a
bound, and so a WAIT ends. -/

namespace Sys2Proof.Machine

open Sys2Proof

/-! ### Every command completes (R91) -/

/-- Within `bound` engine steps the engine is idle with DONE = 1. -/
def CompletesWithin (bound : Nat) (s : State) : Prop :=
  ∃ n ≤ bound, ∃ t, engineRun n s = .next t ∧ t.eng = .idle ∧ t.done = true

theorem CompletesWithin.mono {a b : Nat} {s : State} (h : CompletesWithin a s) (hab : a ≤ b) : CompletesWithin b s := by
  obtain ⟨n, hn, ht⟩ := h
  exact ⟨n, hn.trans hab, ht⟩

theorem CompletesWithin.cons {bound : Nat} {s t : State} (h : CompletesWithin bound t)
    (hstep : engineStep s = .next t) : CompletesWithin (bound + 1) s := by
  obtain ⟨n, hn, u, hrun, hu⟩ := h
  exact ⟨n + 1, Nat.succ_le_succ hn, u, (engineRun_cons hstep n).trans hrun, hu⟩

theorem completesWithin_zero {s : State} (hidle : s.eng = .idle) (hdone : s.done = true) : CompletesWithin 0 s :=
  ⟨0, le_rfl, s, rfl, hidle, hdone⟩

/-- A running BUILD has a cell step for each cell left, and the finish step. -/
theorem InBuild.completesWithin {s : State} (h : InBuild s) : CompletesWithin (s.cellCount + 1) s := by
  have hle := h.cellsDone_le
  obtain ⟨hrun, hend, hplace⟩ := h.engineRun_cells (k := s.cellCount - s.cellsDone) (by omega)
  have hcount := cellCount_cells (s.cellCount - s.cellsDone) s
  obtain ⟨-, hy⟩ := hend.past (by omega)
  have hfinish := (engineRun_snoc hrun).trans (engineStep_finish hend.eng hy)
  exact ⟨s.cellCount - s.cellsDone + 1, by omega, _, hfinish, rfl, rfl⟩

theorem cellCount_le {s : State} (h : s.buildPasses) : s.cellCount ≤ s.cfg.maxDim * s.cfg.maxDim := by
  obtain ⟨-, hw, -, hh⟩ := buildPasses_dims h
  exact Nat.mul_le_mul hw hh

/-- A command in EXEC completes in this step or starts a BUILD. -/
theorem completesWithin_exec {s : State} (he : s.eng = .exec) :
    CompletesWithin (s.cfg.maxDim * s.cfg.maxDim + 2) s := by
  obtain ⟨t, hstep, heffect⟩ := engineStep_effect (s := s) (by simp [he])
  cases heffect with
  | nop | illegal | buildFails | query =>
    exact ((completesWithin_zero rfl rfl).cons hstep).mono (by omega)
  | buildStarts _ _ hpass =>
    exact ((inBuild_start hpass).completesWithin.cons hstep).mono (Nat.add_le_add_right (cellCount_le hpass) 2)
  | cell hb | finish hb => simp [he] at hb

theorem BuildInv.completesWithin {s : State} (h : BuildInv s) (he : s.eng = .building) :
    CompletesWithin (s.cfg.maxDim * s.cfg.maxDim + 2) s := by
  have hle := cellCount_le h.passes
  exact (InBuild.completesWithin ⟨he, h.cursor⟩).mono (by omega)

/-- Settles O50: EXEC takes one step, a BUILD one for each cell left and the finish step. -/
theorem everyCommandCompletes : Obligations.EveryCommandCompletes := by
  intro s h hbusy
  cases he : s.eng with
  | idle => exact absurd he hbusy
  | exec => exact completesWithin_exec he
  | building => exact (h.building he).completesWithin he

/-! ### A WAIT ends (R80, R166) -/

/-- No turn is listed and reset is released, so the engine moves while it is busy and else the host (log entry 1). -/
structure Unattended (s : State) : Prop where
  config : s.cfg.legal = true
  rst : s.rst = false
  sched : s.sched = []

/-- The engine's steps leave the host's program and all that decides whose turn it is alone. -/
theorem EngineEffect.unattended {s t : State} (he : EngineEffect s t) (h : Unattended s) :
    Unattended t ∧ t.host = s.host := by
  obtain ⟨hcfg, hrst, hsched⟩ := h
  cases he <;> exact ⟨⟨hcfg, hrst, hsched⟩, rfl⟩

theorem coreRun_cons {s t : State} (h : step s = .next t) (n : Nat) : core.run (n + 1) s = core.run n t := by
  have hcore : core.step s = .next t := h
  simp only [Host.Core.run, hcore]

/-- R80: a poll of STATUS while the engine is idle ends the WAIT. -/
theorem hostPoll_ends {s : State} (hidle : s.eng = .idle) (rest : List HostOp) :
    (hostPoll rest s).host = rest ∧ (hostPoll rest s).busy = false := by
  have hbusy : s.busy = false := (busy_eq_false_iff s).mpr hidle
  refine ⟨?_, hbusy⟩
  rw [hostPoll_host, show readReg s .status = statusWord s from rfl, statusWord_busy, hbusy]
  rfl

theorem wait_ends_idle {s : State} {rest : List HostOp} (h : Unattended s) (hhost : s.host = .wait :: rest)
    (hidle : s.eng = .idle) : core.run 1 s = .next (hostPoll rest s) :=
  coreRun_cons ((step_host h.config h.sched hidle).trans (hostTurn_wait hhost)) 0

/-- If the engine alone comes to rest in `n` steps, the whole machine ends the WAIT in one step more. -/
theorem wait_ends_of_engineRun {n : Nat} {s t : State} {rest : List HostOp} (h : Unattended s)
    (hhost : s.host = .wait :: rest) (hrun : engineRun n s = .next t) (hidle : t.eng = .idle) :
    ∃ m ≤ n + 1, ∃ u, core.run m s = .next u ∧ u.host = rest ∧ u.busy = false := by
  induction n generalizing s with
  | zero =>
    obtain rfl : s = t := Host.Outcome.next.inj hrun
    exact ⟨1, le_rfl, _, wait_ends_idle h hhost hidle, hostPoll_ends hidle rest⟩
  | succ n ih =>
    by_cases hs : s.eng = .idle
    · exact ⟨1, by omega, _, wait_ends_idle h hhost hs, hostPoll_ends hs rest⟩
    · obtain ⟨u, hstep, heffect⟩ := engineStep_effect hs
      obtain ⟨hu, huhost⟩ := heffect.unattended h
      obtain ⟨m, hm, v, hv⟩ := ih hu (huhost.trans hhost) ((engineRun_cons hstep n).symm.trans hrun)
      have hturn : step s = .next u := (step_engine h.config h.sched hs h.rst).trans hstep
      exact ⟨m + 1, Nat.succ_le_succ hm, v, by rw [coreRun_cons hturn]; exact hv.1, hv.2⟩

/-- A busy engine comes to rest within the bound of R91; an idle one is at rest. -/
theorem State.Inv.comes_to_rest {s : State} (h : s.Inv) :
    ∃ n ≤ s.cfg.maxDim * s.cfg.maxDim + 2, ∃ t, engineRun n s = .next t ∧ t.eng = .idle := by
  by_cases hidle : s.eng = .idle
  · exact ⟨0, Nat.zero_le _, s, rfl, hidle⟩
  · obtain ⟨n, hn, t, hrun, ht, -⟩ := everyCommandCompletes s h hidle
    exact ⟨n, hn, t, hrun, ht⟩

/-- Settles O51: with no turn listed the engine runs to its completion, and then the host's poll reads BUSY = 0. -/
theorem waitEnds : Obligations.WaitEnds := by
  intro s rest h hrst hsched hhost
  obtain ⟨n, hn, t, hrun, hidle⟩ := h.comes_to_rest
  obtain ⟨m, hm, hu⟩ := wait_ends_of_engineRun ⟨h.config, hrst, hsched⟩ hhost hrun hidle
  exact ⟨m, by omega, hu⟩

end Sys2Proof.Machine
end

section
/-! What the spec leaves at any value never shows (93_implementation_defined.md items 1 to 3; log entries 4 and 5): a
state with its unspecified part replaced, what may be replaced by what, and that every turn answers alike. -/

namespace Sys2Proof.Machine

open Sys2Proof

/-! ### The unspecified part of a state -/

/-- The parts of a state that hold unspecified values: the snapshot, the cursor, the tables' cells and the counter that
selects the free values. -/
structure Unspecified where
  snap : Snapshot
  cx : Nat
  cy : Nat
  vt : Table
  nt : Table
  epoch : Nat

/-- The state with those parts replaced. -/
def State.withUnspecified (s : State) (u : Unspecified) : State :=
  { s with snap := u.snap, cx := u.cx, cy := u.cy, vt := u.vt, nt := u.nt, epoch := u.epoch }

/-- Those parts of a state. -/
def State.unspecified (s : State) : Unspecified :=
  { snap := s.snap, cx := s.cx, cy := s.cy, vt := s.vt, nt := s.nt, epoch := s.epoch }

/-- The replacement touches only what is unspecified in `s`. -/
structure Hidden (s : State) (u : Unspecified) : Prop where
  snap : s.eng ≠ .idle → u.snap = s.snap
  cursor : s.eng = .building → u.cx = s.cx ∧ u.cy = s.cy
  cells : s.eng = .building → ∀ x y, CellWritten s.runWidth s.runHeight s.cx s.cy x y →
    vtCell (s.withUnspecified u) x y = vtCell s x y ∧ ntCell (s.withUnspecified u) x y = ntCell s x y
  tables : s.valid = true → ∀ x ≤ s.builtWidth.toNat, ∀ y ≤ s.builtHeight.toNat,
    vtCell (s.withUnspecified u) x y = vtCell s x y ∧ ntCell (s.withUnspecified u) x y = ntCell s x y

theorem Hidden.sameSpecified {s : State} {u : Unspecified} (h : Hidden s u) : SameSpecified s (s.withUnspecified u) :=
  ⟨rfl, rfl, rfl, rfl, rfl, rfl, rfl, rfl, rfl, rfl, rfl, rfl, rfl, rfl, rfl, rfl, h.snap, h.cursor, h.cells, h.tables⟩

theorem SameSpecified.eq_withUnspecified {s t : State} (h : SameSpecified s t) :
    t = s.withUnspecified t.unspecified := by
  simp only [State.withUnspecified, State.unspecified, ← h.cfg, ← h.ie, ← h.eng, ← h.valid, ← h.done, ← h.drop, ← h.err,
    ← h.ops, ← h.res, ← h.builtWidth, ← h.builtHeight, ← h.grid, ← h.rst, ← h.host, ← h.sched, ← h.reads]

theorem SameSpecified.exists_hidden {s t : State} (h : SameSpecified s t) :
    ∃ u, t = s.withUnspecified u ∧ Hidden s u := by
  refine ⟨_, h.eq_withUnspecified, h.snap, h.cursor, ?_, ?_⟩
  · rw [← h.eq_withUnspecified]
    exact h.cells
  · rw [← h.eq_withUnspecified]
    exact h.tables

/-- The states that the outcomes on a state and on its replacement lead to differ in unspecified parts only. -/
def Agree (f : State → Host.Outcome State Fault Refusal) (s : State) (u : Unspecified) : Prop :=
  SameOutcome SameSpecified (f s) (f (s.withUnspecified u))

theorem Agree.of_next {f : State → Host.Outcome State Fault Refusal} {s t t' : State} {u : Unspecified}
    (hs : f s = .next t) (hu : f (s.withUnspecified u) = .next t') (h : SameSpecified t t') : Agree f s u := by
  rw [Agree, hs, hu]
  exact h

theorem Agree.of_refused {f : State → Host.Outcome State Fault Refusal} {s : State} {u : Unspecified} {r : Refusal}
    (hs : f s = .refused r) (hu : f (s.withUnspecified u) = .refused r) : Agree f s u := by
  rw [Agree, hs, hu]
  exact rfl

/-! ### The host's turn -/

theorem readOffset_withUnspecified (s : State) (u : Unspecified) (off : BitVec 8) :
    readOffset (s.withUnspecified u) off = readOffset s off := by
  cases hr : regAt off with
  | none => rw [readOffset_none hr, readOffset_none hr]
  | some r =>
    rw [readOffset_eq hr, readOffset_eq hr]
    cases r <;> rfl

theorem Hidden.accept_agrees {s : State} {u : Unspecified} (h : Hidden s u) (w : Word) :
    SameSpecified (accept w s) (accept w (s.withUnspecified u)) :=
  Hidden.sameSpecified (s := accept w s) (u := (accept w (s.withUnspecified u)).unspecified)
    ⟨fun _ => rfl, nofun, nofun, h.tables⟩

theorem Hidden.writeCmd_agrees {s : State} {u : Unspecified} (h : Hidden s u) (w : Word) :
    SameSpecified (writeCmd w s) (writeCmd w (s.withUnspecified u)) := by
  by_cases hidle : s.eng = .idle
  · rw [writeCmd_idle hidle, writeCmd_idle (s := s.withUnspecified u) hidle]
    exact h.accept_agrees w
  · rw [writeCmd_busy hidle, writeCmd_busy (s := s.withUnspecified u) hidle]
    exact Hidden.sameSpecified (s := { s with drop := true }) ⟨h.snap, h.cursor, h.cells, h.tables⟩

theorem Hidden.writeReg_agrees {s : State} {u : Unspecified} (h : Hidden s u) (r : RegName) (v : Word) :
    SameSpecified (writeReg r v s) (writeReg r v (s.withUnspecified u)) := by
  cases r
  case cmd => exact h.writeCmd_agrees v
  all_goals exact Hidden.sameSpecified (u := u) ⟨h.snap, h.cursor, h.cells, h.tables⟩

theorem Hidden.writeOffset_agrees {s : State} {u : Unspecified} (h : Hidden s u) (off : BitVec 8) (v : Word) :
    SameSpecified (writeOffset off v s) (writeOffset off v (s.withUnspecified u)) := by
  cases hr : regAt off with
  | none =>
    rw [writeOffset_none hr, writeOffset_none hr]
    exact h.sameSpecified
  | some r =>
    rw [writeOffset_eq hr, writeOffset_eq hr]
    exact h.writeReg_agrees r v

theorem Hidden.hostWrite_agrees {s : State} {u : Unspecified} (h : Hidden s u) (a : Access) (v : Word) :
    Agree (hostWrite a v) s u := by
  cases ha : a.supported with
  | false => exact .of_refused (hostWrite_unsupported ha v s) (hostWrite_unsupported ha v _)
  | true =>
    refine .of_next (hostWrite_supported ha v s) (hostWrite_supported ha v _) ?_
    cases hrst : s.rst with
    | true =>
      rw [show (s.withUnspecified u).rst = true from hrst, if_pos rfl, if_pos rfl]
      exact h.sameSpecified
    | false =>
      rw [show (s.withUnspecified u).rst = false from hrst, if_neg Bool.false_ne_true, if_neg Bool.false_ne_true]
      exact h.writeOffset_agrees a.off v

theorem Hidden.hostRead_agrees {s : State} {u : Unspecified} (h : Hidden s u) (a : Access) :
    Agree (hostRead a) s u := by
  cases ha : a.supported with
  | false => exact .of_refused (hostRead_unsupported ha s) (hostRead_unsupported ha _)
  | true =>
    refine .of_next (hostRead_supported ha s) (hostRead_supported ha _) ?_
    rw [readOffset_withUnspecified]
    exact Hidden.sameSpecified (s := { s with reads := readOffset s a.off :: s.reads })
      ⟨h.snap, h.cursor, h.cells, h.tables⟩

/-- The host's program, its reads and the turns to come are specified. -/
theorem Hidden.hostSide {s : State} {u : Unspecified} (h : Hidden s u) (hs : List HostOp) (rd : List Word)
    (sc : List Turn) : Hidden { s with host := hs, reads := rd, sched := sc } u :=
  ⟨h.snap, h.cursor, h.cells, h.tables⟩

theorem Hidden.hostTurn_agrees {s : State} {u : Unspecified} (h : Hidden s u) : Agree hostTurn s u := by
  cases hhost : s.host with
  | nil => exact .of_next (hostTurn_nil hhost) (hostTurn_nil (s := s.withUnspecified u) hhost) h.sameSpecified
  | cons op rest =>
    have hrest := h.hostSide rest s.reads s.sched
    cases op with
    | wr a v =>
      rw [Agree, hostTurn_wr hhost, hostTurn_wr (s := s.withUnspecified u) hhost]
      exact hrest.hostWrite_agrees a v
    | rd a =>
      rw [Agree, hostTurn_rd hhost, hostTurn_rd (s := s.withUnspecified u) hhost]
      exact hrest.hostRead_agrees a
    | wait =>
      refine .of_next (hostTurn_wait hhost) (hostTurn_wait (s := s.withUnspecified u) hhost) ?_
      exact Hidden.sameSpecified (s := hostPoll rest s) ⟨h.snap, h.cursor, h.cells, h.tables⟩

/-! ### The engine's turn -/

theorem Hidden.complete_agrees {s : State} {u : Unspecified} (h : Hidden s u) (code : Completion) (r : Results) :
    SameSpecified (complete code { s with res := r }) (complete code { s.withUnspecified u with res := r }) :=
  Hidden.sameSpecified (s := complete code { s with res := r })
    ⟨fun he => absurd rfl he, nofun, nofun, h.tables⟩

/-- Without a table a query reads no cell; with one, only cells up to the built dimensions. -/
theorem Hidden.exec_query_agrees {s : State} {u : Unspecified} (h : Hidden s u) (hsnap : u.snap = s.snap) {i : Instr}
    (hquery : isQuery i) : Agree (exec i) s u := by
  cases hvalid : s.valid with
  | false =>
    exact .of_next ((exec_query hquery _).trans (runQuery_noTable hvalid _))
      ((exec_query hquery _).trans (runQuery_noTable (s := s.withUnspecified u) hvalid _)) (h.complete_agrees _ _)
  | true =>
    have hops : (s.withUnspecified u).snap.ops = s.snap.ops := congrArg Snapshot.ops hsnap
    obtain ⟨t, v, ht, hv, hres, herr, -, -⟩ := queriesArePure i s (s.withUnspecified u) hquery rfl rfl rfl
      (congrArg _ hops) (congrArg _ hops) (congrArg _ hops) (congrArg _ hops) (h.tables hvalid)
    obtain ⟨c, -, r, -, hrun⟩ := runQuery_cases (ownResults i s) s
    obtain ⟨c', -, r', -, hrun'⟩ := runQuery_cases (ownResults i (s.withUnspecified u)) (s.withUnspecified u)
    cases ((exec_query hquery _).trans hrun).symm.trans ht
    cases ((exec_query hquery _).trans hrun').symm.trans hv
    obtain rfl : r' = r := hres
    obtain rfl : c' = c := herr
    exact .of_next ht hv (h.complete_agrees c' r')

theorem withUnspecified_runWidth {s : State} {u : Unspecified} (h : u.snap = s.snap) :
    (s.withUnspecified u).runWidth = s.runWidth := by
  rw [runWidth_eq, runWidth_eq, State.withUnspecified, h]

theorem withUnspecified_runHeight {s : State} {u : Unspecified} (h : u.snap = s.snap) :
    (s.withUnspecified u).runHeight = s.runHeight := by
  rw [runHeight_eq, runHeight_eq, State.withUnspecified, h]

/-- The start step writes the cells that count as written, the border, in every state alike (R100). -/
theorem hidden_buildStart (s : State) (u : Unspecified) (hsnap : u.snap = s.snap) :
    SameSpecified (buildStart s.runWidth s.runHeight s) (buildStart s.runWidth s.runHeight (s.withUnspecified u)) := by
  refine Hidden.sameSpecified (s := buildStart s.runWidth s.runHeight s)
    (u := (buildStart s.runWidth s.runHeight (s.withUnspecified u)).unspecified)
    ⟨fun _ => hsnap, fun _ => ⟨rfl, rfl⟩, fun _ x y hxy => ?_, nofun⟩
  have hread := Table.read_border s.runWidth s.runHeight x y
  have hborder : (y = 0 ∧ x ≤ s.runWidth) ∨ (x = 0 ∧ y ≤ s.runHeight) := (cellWritten_start _ _ x y).mp hxy
  rw [if_pos hborder] at hread
  simp only [vtCell, ntCell, State.withUnspecified, State.unspecified, buildStart_vt, buildStart_nt, hread,
    Option.getD_some, and_self]

theorem Hidden.execBuild_agrees {s : State} {u : Unspecified} (h : Hidden s u) (hsnap : u.snap = s.snap) :
    Agree execBuild s u := by
  have hpasses : (s.withUnspecified u).buildPasses ↔ s.buildPasses := by
    rw [State.buildPasses, State.buildPasses, State.withUnspecified, hsnap]
  by_cases hpass : s.buildPasses
  · refine .of_next (execBuild_passes hpass) (execBuild_passes (hpasses.mpr hpass)) ?_
    rw [withUnspecified_runWidth hsnap, withUnspecified_runHeight hsnap]
    exact hidden_buildStart s u hsnap
  · refine .of_next (execBuild_fails hpass) (execBuild_fails (mt hpasses.mp hpass)) ?_
    rw [show (s.withUnspecified u).buildFailure = s.buildFailure by
      rw [State.buildFailure, State.buildFailure, State.withUnspecified, hsnap]]
    exact h.complete_agrees s.buildFailure s.res

theorem Hidden.exec_agrees {s : State} {u : Unspecified} (h : Hidden s u) (hsnap : u.snap = s.snap) (i : Instr) :
    Agree (exec i) s u := by
  cases i with
  | nop => exact h.complete_agrees .ok s.res
  | build => exact h.execBuild_agrees hsnap
  | qsum | qavg | qnzc | qnzavg => exact h.exec_query_agrees hsnap (by simp [isQuery])

theorem vtCell_buildCell (s : State) (x y : Nat) :
    vtCell (buildCell s) x y =
      if x = s.cx + 1 ∧ y = s.cy + 1 then recurrence ((cellByte s).setWidth 32) (vtCell s) s.cx s.cy
      else vtCell s x y := by
  simp only [vtCell, buildCell_vt, Table.read_write]
  split <;> rfl

theorem ntCell_buildCell (s : State) (x y : Nat) :
    ntCell (buildCell s) x y =
      if x = s.cx + 1 ∧ y = s.cy + 1 then recurrence (nz (cellByte s)) (ntCell s) s.cx s.cy else ntCell s x y := by
  simp only [ntCell, buildCell_nt, Table.read_write]
  split <;> rfl

/-- The recurrence reads three cells. -/
theorem recurrence_congr {v : Word} {cell cell' : Nat → Nat → Word} {cx cy : Nat}
    (h01 : cell' cx (cy + 1) = cell cx (cy + 1)) (h10 : cell' (cx + 1) cy = cell (cx + 1) cy)
    (h00 : cell' cx cy = cell cx cy) : recurrence v cell' cx cy = recurrence v cell cx cy := by
  rw [recurrence, h01, h10, h00, recurrence]

/-- A cell step reads cells that have been written and makes one more of them agree (R49). -/
theorem buildCell_cells_agree {s t : State} (hcx : t.cx = s.cx) (hcy : t.cy = s.cy) (hbyte : cellByte t = cellByte s)
    (hx : s.cx < s.runWidth) (hy : s.cy < s.runHeight)
    (hcells : ∀ x y, CellWritten s.runWidth s.runHeight s.cx s.cy x y →
      vtCell t x y = vtCell s x y ∧ ntCell t x y = ntCell s x y) (x y : Nat)
    (hxy : CellWritten s.runWidth s.runHeight (buildCell s).cx (buildCell s).cy x y) :
    vtCell (buildCell t) x y = vtCell (buildCell s) x y ∧ ntCell (buildCell t) x y = ntCell (buildCell s) x y := by
  obtain ⟨w01, w10, w00⟩ := cellWritten_neighbours hx hy
  obtain ⟨v01, n01⟩ := hcells _ _ w01
  obtain ⟨v10, n10⟩ := hcells _ _ w10
  obtain ⟨v00, n00⟩ := hcells _ _ w00
  rw [buildCell_cx, buildCell_cy, cellWritten_cell hx hy] at hxy
  rw [vtCell_buildCell, vtCell_buildCell, ntCell_buildCell, ntCell_buildCell, hcx, hcy, hbyte]
  split_ifs with hcur
  · exact ⟨recurrence_congr v01 v10 v00, recurrence_congr n01 n10 n00⟩
  · exact hcells x y (hxy.resolve_right hcur)

theorem Hidden.buildCell_agrees {s : State} {u : Unspecified} (h : Hidden s u) (he : s.eng = .building)
    (hvalid : s.valid = false) (hx : s.cx < s.runWidth) (hy : s.cy < s.runHeight) :
    SameSpecified (buildCell s) (buildCell (s.withUnspecified u)) := by
  have hcells := h.cells he
  obtain ⟨snap, cx, cy, vt, nt, epoch⟩ := u
  obtain rfl : snap = s.snap := h.snap (by simp [he])
  obtain ⟨rfl, rfl⟩ : cx = s.cx ∧ cy = s.cy := h.cursor he
  have hagree := buildCell_cells_agree (s := s) (t := s.withUnspecified ⟨s.snap, s.cx, s.cy, vt, nt, epoch⟩) rfl rfl rfl
    hx hy hcells
  exact Hidden.sameSpecified (s := buildCell s) (u := (buildCell (s.withUnspecified _)).unspecified)
    ⟨fun _ => rfl, fun _ => ⟨rfl, rfl⟩, fun _ => hagree, fun hv => absurd (hvalid.symm.trans hv) (by decide)⟩

/-- Past the last row every cell of the tables has been written (R106). -/
theorem Hidden.buildFinish_agrees {s : State} {u : Unspecified} (h : Hidden s u) (he : s.eng = .building)
    (hx : s.cx = 0) (hy : s.cy = s.runHeight) : SameSpecified (buildFinish s) (buildFinish (s.withUnspecified u)) := by
  obtain ⟨snap, cx, cy, vt, nt, epoch⟩ := u
  obtain rfl : snap = s.snap := h.snap (by simp [he])
  have hcells := h.cells he
  refine Hidden.sameSpecified (s := buildFinish s) (u := ⟨s.snap, cx, cy, vt, nt, epoch⟩)
    ⟨fun _ => rfl, nofun, nofun, fun _ x hxw y hyh => ?_⟩
  rw [buildFinish_width] at hxw
  rw [buildFinish_height] at hyh
  refine hcells x y ?_
  rw [hx, hy]
  exact cellWritten_all hxw hyh

theorem Hidden.buildStep_agrees {s : State} {u : Unspecified} (h : Hidden s u) (hinv : BuildInv s)
    (he : s.eng = .building) : Agree buildStep s u := by
  have hsnap : u.snap = s.snap := h.snap (by simp [he])
  have hheight : (s.withUnspecified u).runHeight = s.runHeight := withUnspecified_runHeight hsnap
  have hcy : (s.withUnspecified u).cy = s.cy := (h.cursor he).2
  by_cases hend : s.cy = s.runHeight
  · refine .of_next (buildStep_finish hend) (buildStep_finish (by rw [hcy, hheight, hend])) ?_
    obtain ⟨-, hlt⟩ | ⟨hx, -⟩ := hinv.cursor
    · exact absurd hend hlt.ne
    · exact h.buildFinish_agrees he hx hend
  · refine .of_next (buildStep_cell hend) (buildStep_cell (by rwa [hcy, hheight])) ?_
    obtain ⟨hx, hy⟩ := cursor_inside hinv.cursor hend
    exact h.buildCell_agrees he hinv.valid hx hy

theorem Hidden.engineStep_agrees {s : State} {u : Unspecified} (h : Hidden s u) (hinv : s.Inv) :
    Agree engineStep s u := by
  cases he : s.eng with
  | idle => exact .of_next (engineStep_idle he) (engineStep_idle (s := s.withUnspecified u) he) h.sameSpecified
  | building =>
    rw [Agree, engineStep_building he, engineStep_building (s := s.withUnspecified u) he]
    exact h.buildStep_agrees (hinv.building he) he
  | exec =>
    have hsnap : u.snap = s.snap := h.snap (by simp [he])
    have hop' : (s.withUnspecified u).snap.op = s.snap.op := congrArg Snapshot.op hsnap
    cases hop : s.snap.op with
    | illegal why =>
      exact .of_next (engineStep_illegal he hop)
        (engineStep_illegal (s := s.withUnspecified u) he (hop'.trans hop)) (h.complete_agrees .illegalCmd s.res)
    | legal i =>
      rw [Agree, engineStep_exec he hop, engineStep_exec (s := s.withUnspecified u) he (hop'.trans hop)]
      exact h.exec_agrees hsnap i

theorem Hidden.engineTurn_agrees {s : State} {u : Unspecified} (h : Hidden s u) (hinv : s.Inv) :
    Agree engineTurn s u := by
  cases hrst : s.rst with
  | true => exact .of_next (engineTurn_reset hrst) (engineTurn_reset (s := s.withUnspecified u) hrst) h.sameSpecified
  | false =>
    rw [Agree, engineTurn_released hrst, engineTurn_released (s := s.withUnspecified u) hrst]
    exact h.engineStep_agrees hinv

/-! ### Every turn -/

theorem Hidden.takeTurn_agrees {s : State} {u : Unspecified} (h : Hidden s u) (hinv : s.Inv) (turn : Turn) :
    Agree (takeTurn turn) s u := by
  cases turn with
  | host => exact h.hostTurn_agrees
  | engine => exact h.engineTurn_agrees hinv
  | gridWrite a b => exact Hidden.sameSpecified (s := gridWriteTurn a b s) ⟨h.snap, h.cursor, h.cells, h.tables⟩
  | setReset level =>
    exact Hidden.sameSpecified (s := resetPsa level s) (u := (resetPsa level (s.withUnspecified u)).unspecified)
      ⟨fun he => absurd rfl he, nofun, nofun, nofun⟩

/-- Settles O49: the two states are one state and a replacement of its unspecified part, and each turn answers alike. -/
theorem unspecifiedStateNeverMatters : Obligations.UnspecifiedStateNeverMatters := by
  intro s t hs _ hsame
  obtain ⟨u, rfl, h⟩ := hsame.exists_hidden
  cases hsched : s.sched with
  | nil =>
    rw [step_default hs.config hsched, step_default (s := s.withUnspecified u) hs.config hsched]
    exact h.takeTurn_agrees hs s.defaultTurn
  | cons turn rest =>
    rw [step_turn hs.config hsched, step_turn (s := s.withUnspecified u) hs.config hsched]
    exact (h.hostSide s.host s.reads rest).takeTurn_agrees (hs.hostSide s.host s.reads rest) turn

end Sys2Proof.Machine
end

section
/-! Decoding is total and inverts the encoder (30_encoding.md sections 1 to 4). -/

namespace Sys2Proof.Machine

open Sys2Proof

theorem decode_encode (i : Instr) : decode (encode i) = .legal i := by
  cases i
  exacts [(Laws.RoundTrip.nop rfl).1, (Laws.RoundTrip.build rfl).1, (Laws.RoundTrip.qsum rfl).1,
    (Laws.RoundTrip.qavg rfl).1, (Laws.RoundTrip.qnzc rfl).1, (Laws.RoundTrip.qnzavg rfl).1]

/-- R73: the six commands are the words 0 to 5. -/
theorem exists_encode_of_lt {w : Word} (h : w.toNat < 6) : ∃ i, w = encode i := by
  have hw : w = BitVec.ofNat 32 w.toNat := by rw [BitVec.ofNat_toNat, BitVec.setWidth_eq]
  generalize w.toNat = k at h hw
  subst hw
  interval_cases k
  exacts [⟨.nop, rfl⟩, ⟨.build, rfl⟩, ⟨.qsum, rfl⟩, ⟨.qavg, rfl⟩, ⟨.qnzc, rfl⟩, ⟨.qnzavg, rfl⟩]

theorem decode_illegal_iff (w : Word) : (∃ why, decode w = .illegal why) ↔ 6 ≤ w.toNat := by
  constructor
  · rintro ⟨why, hw⟩
    by_contra hlt
    obtain ⟨i, rfl⟩ := exists_encode_of_lt (Nat.lt_of_not_le hlt)
    cases (decode_encode i).symm.trans hw
  · exact fun h => decode_illegal (by omega)

theorem decode_legal_iff (w : Word) (i : Instr) : decode w = .legal i ↔ w = encode i := by
  constructor
  · intro hw
    have hlt : w.toNat < 6 := by
      by_contra hge
      obtain ⟨why, hill⟩ := (decode_illegal_iff w).mpr (Nat.le_of_not_lt hge)
      cases hw.symm.trans hill
    obtain ⟨j, rfl⟩ := exists_encode_of_lt hlt
    cases (decode_encode j).symm.trans hw
    rfl
  · rintro rfl
    exact decode_encode i

/-- Settles O2: the words below 6 are the encodings, each decoded to its command, and all others are illegal. -/
theorem decodeAndEncodeAgree : Obligations.DecodeAndEncodeAgree := ⟨decode_legal_iff, decode_illegal_iff⟩

/-- Settles O1: the six words are the encodings; of the four others RSVD or OP is reserved. -/
theorem specWordsDecode : Obligations.SpecWordsDecode :=
  ⟨decode_encode .nop, decode_encode .build, decode_encode .qsum, decode_encode .qavg, decode_encode .qnzc,
    decode_encode .qnzavg, decode_reservedOpcode (by decide) (by decide), decode_reservedOpcode (by decide) (by decide),
    decode_reservedBits (by decide), decode_reservedBits (by decide)⟩

end Sys2Proof.Machine
end

section
/-! The register window as the host meets it (10_state.md sections 1 and 4, 70_reset_and_hazards.md section 1): what
each offset reads, the operand registers, and the window at reset. -/

namespace Sys2Proof.Machine

open Sys2Proof

/-- Settles O53: each of the 24 offsets is looked up in the register map and its register read. -/
theorem eachOffsetReadsItsRegister : Obligations.EachOffsetReadsItsRegister := fun _ => ⟨rfl, rfl, rfl, rfl⟩

/-! ### The operand registers (R31 to R34) -/

/-- The operand registers. -/
def operandRegs : List RegName := [.width, .height, .gridBase, .qx0, .qy0, .qx1, .qy1]

/-- The seven offsets at which they stand. -/
def operandOffsets : List (BitVec 8) := [0x14, 0x18, 0x1C, 0x20, 0x24, 0x28, 0x2C]

theorem regAt_operandOffsets : ∀ off ∈ operandOffsets, ∃ r ∈ operandRegs, regAt off = some r := by decide

theorem readReg_writeReg_operand {r : RegName} (hr : r ∈ operandRegs) (v : Word) (s : State) :
    readReg (writeReg r v s) r = v := by
  cases r
  case width | height | gridBase | qx0 | qy0 | qx1 | qy1 => rfl
  all_goals exact absurd hr (by decide)

theorem readReg_writeReg_operand_other {r p : RegName} (hr : r ∈ operandRegs) (hp : p ≠ r) (v : Word) (s : State) :
    readReg (writeReg r v s) p = readReg s p := by
  cases r
  case width | height | gridBase | qx0 | qy0 | qx1 | qy1 =>
    cases p <;> first | rfl | exact absurd rfl hp
  all_goals exact absurd hr (by decide)

theorem writeReg_operand_frame {r : RegName} (hr : r ∈ operandRegs) (v : Word) (s : State) :
    writeReg r v s = { s with ops := (writeReg r v s).ops } := by
  cases r
  case width | height | gridBase | qx0 | qy0 | qx1 | qy1 => rfl
  all_goals exact absurd hr (by decide)

/-- Settles O31: each of the seven offsets is an operand register's, which holds the word written and is read nowhere
else. -/
theorem operandRegistersReadBack : Obligations.OperandRegistersReadBack := by
  intro s v off hoff
  obtain ⟨r, hr, hreg⟩ := regAt_operandOffsets off hoff
  rw [writeOffset_eq hreg]
  exact ⟨(readOffset_eq hreg _).trans (readReg_writeReg_operand hr v s),
    fun q hq => readOffset_other hreg (fun p hp => readReg_writeReg_operand_other hr hp v s) hq,
    writeReg_operand_frame hr v s⟩

/-! ### The window at reset (R151, R152, R154) -/

/-- At the reset values every register but ID and PARAM reads 0. -/
theorem AtReset.readReg_eq_zero {s : State} (h : AtReset s) {r : RegName} (hid : r ≠ .id) (hparam : r ≠ .param) :
    readReg s r = 0 := by
  cases r with
  | id => exact absurd rfl hid
  | param => exact absurd rfl hparam
  | ctrl =>
    rw [readReg, ctrlWord, h.ie]
    decide
  | status =>
    rw [readReg, statusWord, State.busy, h.err, h.drop, h.done, h.valid, h.eng]
    decide
  | cmd => rfl
  | width | height | gridBase | qx0 | qy0 | qx1 | qy1 =>
    rw [readReg, h.ops]
    rfl
  | resSum | resNzc | resCount | resAvgLo | resAvgHi | resLowX | resHighX | resLowY | resHighY =>
    rw [readReg, h.res]
    rfl
  | resFlags =>
    rw [readReg, h.res]
    decide
  | builtWidth => exact h.builtWidth
  | builtHeight => exact h.builtHeight

theorem AtReset.readOffset_eq_zero {s : State} (h : AtReset s) {off : BitVec 8} (hoff : 8 ≤ off.toNat) :
    readOffset s off = 0 := by
  cases hr : regAt off with
  | none => exact readOffset_none hr s
  | some r =>
    rw [readOffset_eq hr]
    refine h.readReg_eq_zero ?_ ?_ <;> rintro rfl
    · obtain rfl : off = 0x00 := regAt_injective hr rfl
      exact absurd hoff (by decide)
    · obtain rfl : off = 0x04 := regAt_injective hr rfl
      exact absurd hoff (by decide)

/-- The window at the reset values: ID, PARAM and zeros. -/
theorem AtReset.window {s : State} (h : AtReset s) :
    s.window = [0x50534131, paramWord s.cfg] ++ List.replicate 62 0x00000000 := by
  have hsplit : List.range 64 = [0, 1] ++ (List.range 62).map (· + 2) := by decide
  have hzero : ((List.range 62).map (· + 2)).map (fun k => readOffset s (BitVec.ofNat 8 (4 * k))) =
      List.replicate 62 0 := by
    refine List.eq_replicate_iff.mpr ⟨by simp, ?_⟩
    simp only [List.map_map, List.mem_map, List.mem_range]
    rintro _ ⟨k, hk, rfl⟩
    refine h.readOffset_eq_zero ?_
    change 8 ≤ 4 * (k + 2) % 2 ^ 8
    omega
  rw [State.window, hsplit, List.map_append, hzero]
  rfl

theorem AtReset.irq {s : State} (h : AtReset s) : s.irq = false := by
  rw [State.irq, h.ie]
  rfl

/-- Settles O44: `State.reset` is at the reset values, and PARAM is that of the default MAX_DIM. -/
theorem resetWindow : Obligations.ResetWindow := by
  have hparam : paramWord State.reset.cfg = 0x08201000 := by decide
  exact ⟨hparam ▸ atReset_reset.window, rfl, rfl⟩

/-- Settles O45: either level of the reset input puts the PSA at its reset values, and the asserted one holds it
there. -/
theorem resetAbandonsEverything : Obligations.ResetAbandonsEverything := by
  intro s level rest hcfg hsched
  have hreset := atReset_resetPsa level { s with sched := rest }
  refine ⟨resetPsa level { s with sched := rest }, step_turn hcfg hsched, hreset, rfl,
    hreset.readReg_eq_zero (r := .status) (by decide) (by decide), hreset.irq, hreset.window, fun _ => rfl, ?_⟩
  rintro rfl
  exact ⟨engineTurn_reset rfl, fun a v ha => hostWrite_supported ha v _⟩

end Sys2Proof.Machine
end

section
/-! One step at a time (40_command.md section 1, 20_memory.md, 30_encoding.md section 6): which command a step runs, how
a command completes, the host's transactions, the grid memory, and the host's writes beside a running command. -/

namespace Sys2Proof.Machine

open Sys2Proof

/-- Settles O46: such a configuration is not legal, and `step` asks first. -/
theorem illegalConfigRefused : Obligations.IllegalConfigRefused := by
  intro s h
  refine step_illegal ?_
  rw [Config.legal, Bool.and_eq_false_iff, decide_eq_false_iff_not, decide_eq_false_iff_not]
  omega

/-! ### The command a step runs (R87) -/

/-- The engine's turn in EXEC, reset released, runs the snapshot's command. -/
theorem takeTurn_engine_exec {s : State} {i : Instr} (hrst : s.rst = false) (he : s.eng = .exec)
    (hop : s.snap.op = .legal i) : takeTurn .engine s = exec i s :=
  (engineTurn_released hrst).trans (engineStep_exec he hop)

theorem withFetchWord_toNat (s : State) (w : Word) : s.withFetchWord 32 w.toNat = placeCommand w s := by
  rw [State.withFetchWord, Nat.mod_eq_of_lt w.isLt, BitVec.ofNat_toNat, BitVec.setWidth_eq]

/-- Settles O4: the turn is the engine's, listed or by default, and it runs the snapshot's command. -/
theorem stepRunsTheDecodedCommand : Obligations.StepRunsTheDecodedCommand := by
  refine ⟨fun s w i rest _ hdec hop he hrst hcfg => ⟨fun hsched => ?_, fun hsched => ?_⟩, fun s w i _ hdec hcfg => ?_⟩
  · exact (step_turn hcfg hsched).trans (takeTurn_engine_exec hrst he (hop.trans hdec))
  · rw [step_engine hcfg hsched (by simp [he]) hrst]
    exact engineStep_exec he (hop.trans hdec)
  · rw [withFetchWord_toNat, step_turn (s := placeCommand w s) hcfg rfl]
    exact takeTurn_engine_exec rfl rfl hdec

/-! ### Completion (R86, R136) -/

/-- EXEC of a command completes with one of the command's codes, or starts a BUILD. -/
theorem exec_completes_or_starts (i : Instr) (s : State) :
    (∃ code ∈ allowedCodes i, ∃ r, exec i s = .next (complete code { s with res := r })) ∨
      (i = .build ∧ exec i s = .next (buildStart s.runWidth s.runHeight s)) := by
  cases i with
  | nop => exact .inl ⟨.ok, by decide, s.res, rfl⟩
  | build =>
    obtain ⟨-, hstart⟩ | ⟨-, code, hcode, hfail⟩ := execBuild_cases s
    · exact .inr ⟨rfl, hstart⟩
    · exact .inl ⟨code, List.mem_cons_of_mem _ hcode, s.res, hfail⟩
  | qsum | qavg | qnzc | qnzavg =>
    obtain ⟨code, hcode, r, -, hrun⟩ := runQuery_cases _ s
    exact .inl ⟨code, hcode, r, hrun⟩

/-- ERR, DONE, BUSY and IRQ after a completion that left CTRL.IE alone. -/
theorem CompletedWith.shows {code : Completion} {s t : State} (h : CompletedWith code t) (hie : t.ie = s.ie) :
    ShowsCompletion code s t := by
  have ⟨herr, hdone, hidle⟩ := h
  refine ⟨h, by rw [statusWord_err, herr], by rw [statusWord_done, hdone], ?_, ?_⟩
  · rw [statusWord_busy]
    exact (busy_eq_false_iff t).mpr hidle
  · rw [State.irq, hdone, hie, Bool.and_true]

/-- A step of a running BUILD is a cell step or the finish step. -/
theorem engineStep_building_cases {s t : State} (he : s.eng = .building) (h : engineStep s = .next t) :
    t = buildCell s ∨ t = buildFinish s := by
  rw [engineStep_building he] at h
  by_cases hend : s.cy = s.runHeight
  · cases (buildStep_finish hend).symm.trans h
    exact .inr rfl
  · cases (buildStep_cell hend).symm.trans h
    exact .inl rfl

/-- Settles O7: every step that leaves the engine idle is a `complete`, and STATUS and IRQ are formed from what it
wrote. -/
theorem completionSetsStatusAtOnce : Obligations.CompletionSetsStatusAtOnce := by
  refine ⟨fun i s t h hidle => ?_, fun why s t he hop h => ?_, fun s t he h hidle => ?_⟩
  · obtain ⟨code, hcode, r, hdone⟩ | ⟨-, hstart⟩ := exec_completes_or_starts i s
    · cases hdone.symm.trans h
      exact ⟨code, hcode, (completedWith_complete code _).shows rfl⟩
    · cases hstart.symm.trans h
      cases hidle
  · cases (engineStep_illegal he hop).symm.trans h
    exact (completedWith_complete .illegalCmd s).shows rfl
  · obtain rfl | rfl := engineStep_building_cases he h
    · cases he.symm.trans hidle
    · exact (completedWith_complete .ok _).shows rfl

/-- Settles O8: the step in EXEC is the command's own or the illegal command's, and BUILDING ends with OK alone. -/
theorem completionCodePairing : Obligations.CompletionCodePairing := by
  refine ⟨fun i s t he hop h => ?_, fun why s t he hop h => ?_, fun s t he h => ?_⟩
  · rw [engineStep_exec he hop] at h
    obtain ⟨code, hcode, r, hdone⟩ | ⟨hi, hstart⟩ := exec_completes_or_starts i s
    · cases hdone.symm.trans h
      exact .inl ⟨rfl, hcode⟩
    · cases hstart.symm.trans h
      exact .inr ⟨hi, rfl⟩
  · cases (engineStep_illegal he hop).symm.trans h
    exact ⟨rfl, rfl⟩
  · obtain rfl | rfl := engineStep_building_cases he h
    · exact .inr he
    · exact .inl ⟨rfl, rfl⟩

/-! ### The host's transactions (R62, R78, R80) -/

theorem readOffset_host (s : State) (rest : List HostOp) (off : BitVec 8) :
    readOffset { s with host := rest } off = readOffset s off := by
  cases hr : regAt off with
  | none => rw [readOffset_none hr, readOffset_none hr]
  | some r =>
    rw [readOffset_eq hr, readOffset_eq hr]
    cases r <;> rfl

/-- Settles O38: each transaction is taken off the program and carried out, a WAIT only once the word read shows
BUSY = 0. -/
theorem hostTransactionsInOrder : Obligations.HostTransactionsInOrder := by
  refine ⟨fun s off v rest halign hrst hhost => ?_, fun s off rest halign hhost => ?_, fun s rest hhost => ?_⟩
  · have ha : Access.supported ⟨32, off⟩ = true := (supported_iff _).mpr ⟨rfl, halign⟩
    exact (hostTurn_wr hhost).trans (hostWrite_supported_released ha v hrst)
  · have ha : Access.supported ⟨32, off⟩ = true := (supported_iff _).mpr ⟨rfl, halign⟩
    refine (hostTurn_rd hhost).trans ((hostRead_supported ha _).trans ?_)
    rw [readOffset_host]
  · refine (hostTurn_wait hhost).trans ?_
    rw [hostPoll, show readReg s .status = statusWord s from rfl, statusWord_busy]
    rfl

/-! ### The grid memory (R55, R65) -/

/-- Settles O39: the address written reads the byte written, every other address what it held. -/
theorem gridReadAfterWrite : Obligations.GridReadAfterWrite := by
  intro s a b v
  refine ⟨?_, fun w x y => BitVec.toNat_ofNat _ _⟩
  simp only [gridRead, gridWriteTurn_grid, Memory.read_write]
  split <;> rfl

/-! ### Host writes beside a running command (R90, R92) -/

/-- The state with the operand registers and CTRL.IE replaced, as the host may do at any time. -/
def State.withHostRegs (o : Operands) (ie : Bool) (s : State) : State := { s with ops := o, ie := ie }

theorem ownResults_withHostRegs (i : Instr) (s : State) (o : Operands) (ie : Bool) :
    ownResults i (s.withHostRegs o ie) = ownResults i s := by
  cases i <;> rfl

/-- Queries read the coordinates of the snapshot, BUILD its own snapshot: no command reads the host's registers. -/
theorem exec_withHostRegs (i : Instr) (s : State) (o : Operands) (ie : Bool) :
    exec i (s.withHostRegs o ie) = mapNext (State.withHostRegs o ie) (exec i s) := by
  cases i with
  | nop => rfl
  | build =>
    simp only [exec, execBuild, apply_ite (mapNext (State.withHostRegs o ie))]
    rfl
  | qsum | qavg | qnzc | qnzavg =>
    rw [exec_query (by simp [isQuery]), exec_query (by simp [isQuery]), ownResults_withHostRegs]
    simp only [runQuery, apply_ite (mapNext (State.withHostRegs o ie))]
    rfl

theorem engineStep_withHostRegs (s : State) (o : Operands) (ie : Bool) :
    engineStep (s.withHostRegs o ie) = mapNext (State.withHostRegs o ie) (engineStep s) := by
  cases he : s.eng with
  | idle =>
    rw [engineStep_idle he, engineStep_idle (s := s.withHostRegs o ie) he]
    rfl
  | building =>
    rw [engineStep_building he, engineStep_building (s := s.withHostRegs o ie) he]
    simp only [buildStep, apply_ite (mapNext (State.withHostRegs o ie))]
    rfl
  | exec =>
    cases hop : s.snap.op with
    | illegal why =>
      rw [engineStep_illegal he hop, engineStep_illegal (s := s.withHostRegs o ie) he hop]
      rfl
    | legal i =>
      rw [engineStep_exec he hop, engineStep_exec (s := s.withHostRegs o ie) he hop]
      exact exec_withHostRegs i s o ie

/-- The registers whose writes the engine never sees: the operand registers and CTRL. -/
def hostRegs : List RegName := operandRegs ++ [.ctrl]

/-- The offsets at which they stand. -/
def hostOffsets : List (BitVec 8) := operandOffsets ++ [0x08]

theorem regAt_hostOffsets : ∀ off ∈ hostOffsets, ∃ r ∈ hostRegs, regAt off = some r := by decide

/-- A write to one of them replaces host registers, by values formed from the host registers alone. -/
theorem writeReg_eq_withHostRegs {r : RegName} (hr : r ∈ hostRegs) (v : Word) {s t : State} (hops : t.ops = s.ops)
    (hie : t.ie = s.ie) : writeReg r v t = t.withHostRegs (writeReg r v s).ops (writeReg r v s).ie := by
  cases r
  case width | height | gridBase | qx0 | qy0 | qx1 | qy1 | ctrl =>
    simp only [writeReg, writeCtrl, State.withHostRegs, ← hops, ← hie]
  all_goals exact absurd hr (by decide)

theorem EngineEffect.hostRegs {s t : State} (he : EngineEffect s t) : t.ops = s.ops ∧ t.ie = s.ie := by
  cases he <;> exact ⟨rfl, rfl⟩

/-- Settles O36: such a write replaces host registers, which no engine step reads or writes. -/
theorem hostWritesDoNotDisturbTheEngine : Obligations.HostWritesDoNotDisturbTheEngine := by
  intro s v hbusy off hoff
  obtain ⟨r, hr, hreg⟩ := regAt_hostOffsets off hoff
  obtain ⟨t, hstep, heffect⟩ := engineStep_effect hbusy
  obtain ⟨hops, hie⟩ := heffect.hostRegs
  calc engineStep (writeOffset off v s)
      = engineStep (s.withHostRegs (writeReg r v s).ops (writeReg r v s).ie) := by
        rw [writeOffset_eq hreg, writeReg_eq_withHostRegs hr v (s := s) rfl rfl]
        rfl
    _ = .next (t.withHostRegs (writeReg r v s).ops (writeReg r v s).ie) := by
        rw [engineStep_withHostRegs, hstep, mapNext]
    _ = mapNext (writeOffset off v) (engineStep s) := by
        rw [hstep, mapNext, writeOffset_eq hreg, writeReg_eq_withHostRegs hr v hops hie]

end Sys2Proof.Machine
end

section
/-! Queries over a grid's tables (42_query.md): ordered indices, QNZC, exact rectangle sums, and independence of the
order of the coordinates; the lemmas, then the statements. -/

namespace Sys2Proof.Machine

open Sys2Proof

/-- An in-range query completes with its kind's answer (R121). -/
theorem exec_query_inRange {i : Instr} (hquery : isQuery i) {s : State} (hvalid : s.valid = true) (hrect : ¬s.rectOut) :
    ∃ t, exec i s = .next t ∧ CommonResults s t.res ∧ t.res = s.inRangeAnswer i := by
  obtain ⟨t, hexec, -, -, -, hin⟩ := exec_query_ends hquery s
  obtain ⟨-, hcommon, hres⟩ := hin hvalid hrect
  exact ⟨t, hexec, hcommon, hres⟩

/-- Settles O19: the index registers hold the clamped indices, ordered and bounded by the geometry. -/
theorem inRangeIndicesAreOrdered : Obligations.InRangeIndicesAreOrdered := by
  intro i s hquery hvalid hdims hrect
  obtain ⟨hw, -, hh, -⟩ := hdims
  obtain ⟨t, hexec, hcommon, -⟩ := exec_query_inRange hquery hvalid hrect
  refine ⟨t, hexec, ?_⟩
  rw [readOffset_resLowX, readOffset_resHighX, readOffset_resLowY, readOffset_resHighY, hcommon.lowX, hcommon.highX,
    hcommon.lowY, hcommon.highY]
  exact ⟨loX_lt_hiX hrect hw, hiX_le s, loY_lt_hiY hrect hh, hiY_le s⟩

theorem ownResults_qnzc (s : State) :
    ownResults .qnzc s s.queryClamp = { sum := 0, nzc := s.fourTerms (ntCell s), avg := 0 } := by
  simp only [ownResults, ownQnzc, lookup_eq]

/-- Settles O21: the non-zero-table lookup, and no other result. -/
theorem qnzcResult : Obligations.QnzcResult := by
  refine ⟨by decide, fun s => exec_query_ends_with (.inr (.inr (.inl rfl))) ?_⟩
  rw [inRangeAnswer_sum, inRangeAnswer_nzc, inRangeAnswer_average, ownResults_qnzc]
  exact ⟨rfl, rfl, rfl⟩

/-! ### Exact rectangle sums (R117, R118, R123) -/

/-- The four-term lookup over cells that are sums from the corner is the sum over the rectangle: no wrap shows
(R118). -/
theorem fourTerms_toNat {s : State} {f : Nat → Nat → Nat} {cell : Nat → Nat → Word} (hrect : ¬s.rectOut)
    (hcell : ∀ x ≤ s.builtWidth.toNat, ∀ y ≤ s.builtHeight.toNat, (cell x y).toNat = rectSum f 0 x 0 y)
    (hlt : rectSum f s.loX s.hiX s.loY s.hiY < 2 ^ 32) :
    (s.fourTerms cell).toNat = rectSum f s.loX s.hiX s.loY s.hiY := by
  have hx := loX_le_hiX hrect
  have hy := loY_le_hiY hrect
  have hX := hiX_le s
  have hY := hiY_le s
  refine word_of_lookup hlt ?_
  rw [hcell _ hX _ hY, hcell _ (hx.trans hX) _ (hy.trans hY), hcell _ (hx.trans hX) _ hY, hcell _ hX _ (hy.trans hY)]
  exact inclusion_exclusion f hx hy

/-- The spans of a query within legal dimensions are legal dimensions. -/
theorem span_le {s : State} (hdims : s.dimsLegal) : s.hiX - s.loX ≤ 4104 ∧ s.hiY - s.loY ≤ 4104 := by
  obtain ⟨-, hw, -, hh⟩ := hdims
  have hX := hiX_le s
  have hY := hiY_le s
  omega

theorem vtLookup_toNat {s : State} {g : Grid} (hdims : s.dimsLegal)
    (htables : TablesOf s g s.builtWidth.toNat s.builtHeight.toNat) (hrect : ¬s.rectOut) :
    (s.fourTerms (vtCell s)).toNat = rectSum (valueOf g) s.loX s.hiX s.loY s.hiY :=
  fourTerms_toNat hrect (fun x hx y hy => vtCell_holds (htables x hx y hy).1)
    (valueSum_lt g (span_le hdims).1 (span_le hdims).2)

theorem ntLookup_toNat {s : State} {g : Grid} (hdims : s.dimsLegal)
    (htables : TablesOf s g s.builtWidth.toNat s.builtHeight.toNat) (hrect : ¬s.rectOut) :
    (s.fourTerms (ntCell s)).toNat = rectSum (nonZeroOf g) s.loX s.hiX s.loY s.hiY :=
  fourTerms_toNat hrect (fun x hx y hy => ntCell_holds (htables x hx y hy).2)
    (nonZeroSum_lt g (span_le hdims).1 (span_le hdims).2)

/-- The kinds that answer with a value sum (R122, R124, R125). -/
theorem sumKind_answer {i : Instr} (h : i ∈ [Instr.qsum, .qavg, .qnzavg]) :
    isQuery i ∧ ∀ s : State, (s.inRangeAnswer i).sum = s.fourTerms (vtCell s) := by
  simp only [inRangeAnswer_sum]
  simp only [List.mem_cons, List.not_mem_nil, or_false] at h
  obtain rfl | rfl | rfl := h
  · exact ⟨.inl rfl, fun s => by rw [ownResults_qsum]⟩
  · exact ⟨.inr (.inl rfl), fun s => by rw [ownResults_qavg]⟩
  · exact ⟨.inr (.inr (.inr rfl)), fun s => by rw [ownResults_qnzavg]⟩

/-- The kinds that answer with a non-zero count (R123, R125). -/
theorem countKind_answer {i : Instr} (h : i ∈ [Instr.qnzc, .qnzavg]) :
    isQuery i ∧ ∀ s : State, (s.inRangeAnswer i).nzc = s.fourTerms (ntCell s) := by
  simp only [inRangeAnswer_nzc]
  simp only [List.mem_cons, List.not_mem_nil, or_false] at h
  obtain rfl | rfl := h
  · exact ⟨.inr (.inr (.inl rfl)), fun s => by rw [ownResults_qnzc]⟩
  · exact ⟨.inr (.inr (.inr rfl)), fun s => by rw [ownResults_qnzavg]⟩

/-- R123: no more cells are non-zero than there are. -/
theorem nonZeroSum_le_footprint (g : Grid) (s : State) :
    rectSum (nonZeroOf g) s.loX s.hiX s.loY s.hiY ≤ s.footprint :=
  (rectSum_le (nonZeroOf_le g) _ _ _ _).trans_eq (Nat.one_mul _)

/-- Settles O24: the lookups are exact by inclusion and exclusion, and the count of non-zero cells is within the
footprint. -/
theorem queriesAnswerRectangleSums : Obligations.QueriesAnswerRectangleSums := by
  intro s g hvalid hdims htables hrect
  refine ⟨fun i hi => ?_, fun i hi => ?_⟩
  · obtain ⟨hquery, hsum⟩ := sumKind_answer hi
    obtain ⟨t, hexec, -, hres⟩ := exec_query_inRange hquery hvalid hrect
    refine ⟨t, hexec, ?_⟩
    rw [hres, hsum, vtLookup_toNat hdims htables hrect]
  · obtain ⟨hquery, hcount⟩ := countKind_answer hi
    obtain ⟨t, hexec, hcommon, hres⟩ := exec_query_inRange hquery hvalid hrect
    have hnzc : t.res.nzc.toNat = rectSum (nonZeroOf g) s.loX s.hiX s.loY s.hiY := by
      rw [hres, hcount, ntLookup_toNat hdims htables hrect]
    have hle : t.res.nzc.toNat ≤ t.res.count.toNat := by
      rw [hcommon.count_toNat hdims, hnzc]
      exact nonZeroSum_le_footprint g s
    exact ⟨t, hexec, hnzc, hle⟩

/-! ### The order of the coordinates (R128) -/

/-- The state with the operands of the snapshot replaced. -/
def State.withSnapOps (s : State) (o : Operands) : State := { s with snap := { s.snap with ops := o } }

/-- A query answers by the canonical rectangle of its coordinates alone. -/
theorem query_answer_of_sameRect {i : Instr} (hquery : isQuery i) {s : State} {o : Operands}
    (h : canonRect o = canonRect s.snap.ops) :
    ∃ t u, exec i s = .next t ∧ exec i (s.withSnapOps o) = .next u ∧ u.res = t.res ∧ u.err = t.err := by
  have hrect : (s.withSnapOps o).queryRect = s.queryRect := h
  have hout : (s.withSnapOps o).rectOut ↔ s.rectOut := by
    rw [← queryOor_iff, ← queryOor_iff, State.queryOor, hrect]
    rfl
  have hown : ownResults i (s.withSnapOps o) = ownResults i s := by cases i <;> rfl
  have hin : (s.withSnapOps o).inRangeAnswer i = s.inRangeAnswer i := by
    simp only [State.inRangeAnswer, State.queryClamp, State.queryClipped, hrect, hown]
    rfl
  obtain ⟨t, ht, htends⟩ := exec_query_ends hquery s
  obtain ⟨u, hu, huends⟩ := exec_query_ends hquery (s.withSnapOps o)
  obtain ⟨hres, herr⟩ := htends.same_answer huends rfl hout fun _ => hin
  exact ⟨t, u, ht, hu, hres, herr⟩

/-- R112: canonicalization orders each pair. -/
theorem canonRect_swap_x (o : Operands) : canonRect { o with qx0 := o.qx1, qx1 := o.qx0 } = canonRect o := by
  rw [canonRect_eq, canonRect_eq, min_comm o.qx1.toInt, max_comm o.qx1.toInt]

theorem canonRect_swap_y (o : Operands) : canonRect { o with qy0 := o.qy1, qy1 := o.qy0 } = canonRect o := by
  rw [canonRect_eq, canonRect_eq, min_comm o.qy1.toInt, max_comm o.qy1.toInt]

/-- Settles O26: swapping a pair leaves the canonical rectangle as it is. -/
theorem queryOrderIndependence : Obligations.QueryOrderIndependence := by
  intro i s hquery o ho
  rw [List.mem_pair] at ho
  obtain rfl | rfl := ho
  · exact query_answer_of_sameRect hquery (canonRect_swap_x s.snap.ops)
  · exact query_answer_of_sameRect hquery (canonRect_swap_y s.snap.ops)

end Sys2Proof.Machine
end

section
/-! The average's number format (42_query.md R126, R127; log entry 10): `fdiv64` against every finite binary64 value,
the averages a query can leave, and the averages of a single cell and of the full grid. -/

namespace Sys2Proof.Machine

open Sys2Proof

/-! ### The nearest integer, in rationals -/

/-- The rounded quotient is within a half, and even on a tie. -/
theorem divNearestEven_abs (n : Nat) {d : Nat} (hd : 0 < d) :
    |(n : ℚ) / d - divNearestEven n d| ≤ 1 / 2 ∧
      (|(n : ℚ) / d - divNearestEven n d| = 1 / 2 → divNearestEven n d % 2 = 0) := by
  obtain ⟨hlo, hhi, htieLo, htieHi⟩ := divNearestEven_near n hd
  generalize divNearestEven n d = m at *
  have hdq : (0 : ℚ) < d := by exact_mod_cast hd
  have hq : (n : ℚ) / d * d = n := div_mul_cancel₀ _ hdq.ne'
  generalize (n : ℚ) / d = q at hq ⊢
  have hlo' : 2 * (n : ℚ) ≤ (2 * m + 1) * d := by exact_mod_cast hlo
  have hhi' : 2 * (m : ℚ) * d ≤ 2 * n + d := by exact_mod_cast hhi
  rw [← hq] at hlo' hhi'
  refine ⟨abs_le.mpr ⟨?_, ?_⟩, fun htie => ?_⟩
  · refine le_of_mul_le_mul_right ?_ hdq
    linarith
  · refine le_of_mul_le_mul_right ?_ hdq
    linarith
  · obtain h | h := (abs_eq (by norm_num)).mp htie
    · refine htieLo ?_
      have : 2 * (n : ℚ) = (2 * m + 1) * d := by rw [← hq, show q = m + 1 / 2 by linarith]; ring
      exact_mod_cast this
    · refine htieHi ?_
      have : 2 * (m : ℚ) * d = 2 * n + d := by rw [← hq, show q = m - 1 / 2 by linarith]; ring
      exact_mod_cast this

/-- No integer is nearer than the rounded quotient, and it is even when another one is as near. -/
theorem divNearestEven_nearest (n : Nat) {d : Nat} (hd : 0 < d) (k : Int) :
    |(n : ℚ) / d - divNearestEven n d| ≤ |(n : ℚ) / d - k| ∧
      (|(n : ℚ) / d - divNearestEven n d| = |(n : ℚ) / d - k| → (k : ℚ) ≠ divNearestEven n d →
        divNearestEven n d % 2 = 0) := by
  obtain ⟨hhalf, htie⟩ := divNearestEven_abs n hd
  generalize divNearestEven n d = m at *
  generalize (n : ℚ) / d = q at *
  by_cases hk : k = m
  · subst hk
    exact ⟨le_rfl, fun _ hne => absurd (Int.cast_natCast m) hne⟩
  · have hone : (1 : ℚ) ≤ |(k : ℚ) - m| := by
      have : (1 : Int) ≤ |k - m| := Int.one_le_abs (sub_ne_zero.mpr hk)
      exact_mod_cast this
    have htriangle : |(k : ℚ) - m| ≤ |q - m| + |q - k| := by
      rw [show (k : ℚ) - m = (q - m) - (q - k) by ring]
      exact abs_sub _ _
    exact ⟨by linarith, fun heq _ => htie (by linarith)⟩

/-- The same in units of `c`, against a value that is a whole number of units or lies below the quotient's binade. -/
theorem divNearestEven_nearest_scaled {n d : Nat} (hd : 0 < d) {c y : ℚ} (hc : 0 < c) (hbinade : 2 ^ 52 ≤ (n : ℚ) / d)
    (hy : (∃ k : Int, y = k * c) ∨ y < 2 ^ 52 * c) :
    |(n : ℚ) / d * c - divNearestEven n d * c| ≤ |(n : ℚ) / d * c - y| ∧
      (|(n : ℚ) / d * c - divNearestEven n d * c| = |(n : ℚ) / d * c - y| → y ≠ divNearestEven n d * c →
        divNearestEven n d % 2 = 0) := by
  have hnear := divNearestEven_nearest n hd
  generalize divNearestEven n d = m at *
  generalize (n : ℚ) / d = q at *
  have hscale (x : ℚ) : |q * c - x * c| = |q - x| * c := by rw [← sub_mul, abs_mul, abs_of_pos hc]
  obtain ⟨k, rfl⟩ | hbelow := hy
  · obtain ⟨hle, htie⟩ := hnear k
    rw [hscale, hscale]
    refine ⟨mul_le_mul_of_nonneg_right hle hc.le, fun heq hne => htie (mul_right_cancel₀ hc.ne' heq) ?_⟩
    exact fun hkm => hne (by rw [hkm])
  · obtain ⟨hle, -⟩ := hnear (2 ^ 52)
    have hcast : ((2 ^ 52 : Int) : ℚ) = 2 ^ 52 := by norm_num
    rw [hcast, abs_of_nonneg (a := q - 2 ^ 52) (by linarith)] at hle
    have hstrict : |q * c - m * c| < |q * c - y| := by
      calc |q * c - m * c| = |q - m| * c := hscale _
        _ ≤ (q - 2 ^ 52) * c := mul_le_mul_of_nonneg_right hle hc.le
        _ = q * c - 2 ^ 52 * c := sub_mul _ _ _
        _ < q * c - y := sub_lt_sub_left hbelow _
        _ ≤ |q * c - y| := le_abs_self _
    exact ⟨hstrict.le, fun heq => absurd heq hstrict.ne⟩

/-! ### The finite binary64 values -/

theorem b64Value_nonpos {b : BitVec 64} (hsign : b.getLsbD 63 = true) : b64Value b ≤ 0 := by
  unfold b64Value
  rw [hsign, if_pos rfl, neg_one_mul, neg_nonpos]
  split <;> positivity

theorem b64Value_subnormal {b : BitVec 64} (hsign : b.getLsbD 63 = false) (hexp : b64Exp b = 0) :
    b64Value b = b64Frac b * (2 : ℚ) ^ (-1074 : Int) := by
  unfold b64Value
  rw [hsign, if_neg Bool.false_ne_true, if_pos hexp, one_mul]

theorem b64Frac_lt (b : BitVec 64) : b64Frac b < 2 ^ 52 := by
  rw [b64Frac_toNat]
  exact Nat.mod_lt _ (by norm_num)

/-- A multiple of a unit at least as large is one of the smaller unit; with 53 bits of a smaller unit it stays below. -/
theorem scaled_grid {m : Nat} (hm : m < 2 ^ 53) (e E : Int) :
    (∃ k : Int, m * (2 : ℚ) ^ e = k * (2 : ℚ) ^ E) ∨ m * (2 : ℚ) ^ e < 2 ^ 52 * (2 : ℚ) ^ E := by
  by_cases hle : E ≤ e
  · obtain ⟨j, rfl⟩ := Int.le.dest hle
    refine .inl ⟨(m * 2 ^ j : Nat), ?_⟩
    rw [zpow_add₀ (by norm_num), zpow_natCast]
    push_cast
    ring
  · refine .inr ?_
    calc (m : ℚ) * (2 : ℚ) ^ e
        < 2 ^ 53 * (2 : ℚ) ^ e := mul_lt_mul_of_pos_right (by exact_mod_cast hm) (by positivity)
      _ ≤ 2 ^ 53 * (2 : ℚ) ^ (E - 1) :=
        mul_le_mul_of_nonneg_left (zpow_le_zpow_right₀ (by norm_num) (by omega)) (by positivity)
      _ = 2 ^ 52 * (2 : ℚ) ^ E := by
        rw [zpow_sub_one₀ (by norm_num)]
        ring

/-- Seen from any scale 2^E, a value is a whole number of units or lies below 2^52 units. -/
theorem b64Value_grid (b : BitVec 64) (E : Int) :
    (∃ k : Int, b64Value b = k * (2 : ℚ) ^ E) ∨ b64Value b < 2 ^ 52 * (2 : ℚ) ^ E := by
  have hfrac := b64Frac_lt b
  cases hsign : b.getLsbD 63 with
  | true => exact .inr ((b64Value_nonpos hsign).trans_lt (by positivity))
  | false =>
    by_cases hexp : b64Exp b = 0
    · rw [b64Value_subnormal hsign hexp]
      exact scaled_grid (by omega) _ E
    · rw [b64Value_normal hsign hexp]
      exact scaled_grid (by omega) _ E

/-! ### fdiv64 against them (R126) -/

/-- The factor fdiv64 scales by is undone by the unit of the binade. -/
theorem scale_mul_unit {l : Nat} (hl : l ≤ 116) : (2 : ℚ) ^ (116 - l) * (2 : ℚ) ^ ((l : Int) - 116) = 1 := by
  rw [← zpow_natCast, ← zpow_add₀ (by norm_num), Nat.cast_sub hl]
  simp

/-- The quotient in units of its own binade. -/
theorem quotient_scaled {s d : Nat} (hl : quotientLog s d ≤ 116) :
    (s : ℚ) / d = ((s * 2 ^ (116 - quotientLog s d) : Nat) : ℚ) / d * (2 : ℚ) ^ ((quotientLog s d : Int) - 116) := by
  push_cast
  rw [mul_div_right_comm, mul_assoc, scale_mul_unit hl, mul_one]

section
variable {s d : Nat} (hs : 0 < s) (hs' : s < 2 ^ 32) (hd : 0 < d) (hd' : d < 2 ^ 63)
include hs hs' hd hd'

/-- No binary64 value is nearer to the quotient, and the significand is even when another one is as near. -/
theorem fdiv64_nearest (b : BitVec 64) :
    |(s : ℚ) / d - b64Value (fdiv64 s d)| ≤ |(s : ℚ) / d - b64Value b| ∧
      (|(s : ℚ) / d - b64Value (fdiv64 s d)| = |(s : ℚ) / d - b64Value b| → b64Value b ≠ b64Value (fdiv64 s d) →
        significand s d % 2 = 0) := by
  obtain ⟨-, hhigh⟩ := quotientLog_range hs hs' hd hd'
  have hbinade : (2 : ℚ) ^ 52 ≤ ((s * 2 ^ (116 - quotientLog s d) : Nat) : ℚ) / d := by
    rw [le_div_iff₀ (by exact_mod_cast hd)]
    exact_mod_cast (scaled_range hs hs' hd hd').1
  rw [fdiv64_value hs hs' hd hd', quotient_scaled (s := s) (d := d) (by omega)]
  exact divNearestEven_nearest_scaled hd (by positivity) hbinade (b64Value_grid b _)

/-- The last bit of the pattern is that of the significand. -/
theorem fdiv64_even (h : significand s d % 2 = 0) : (fdiv64 s d).getLsbD 0 = false := by
  rw [BitVec.getLsbD, Nat.testBit_zero, fdiv64_toNat hs hs' hd hd', decide_eq_false_iff_not]
  omega

theorem fdiv64_posNormal : b64PosNormal (fdiv64 s d) := by
  have hr := quotientLog_range hs hs' hd hd'
  obtain ⟨hsign, ⟨-, he, -⟩ | ⟨-, he, -⟩⟩ := fdiv64_fields hs hs' hd hd' <;> exact ⟨hsign, by omega, by omega⟩

/-- Rounding does not pass an integer bound of the quotient. -/
theorem fdiv64_value_le {c : Nat} (h : s ≤ c * d) : b64Value (fdiv64 s d) ≤ c := by
  obtain ⟨-, hhigh⟩ := quotientLog_range hs hs' hd hd'
  have hbound : significand s d ≤ c * 2 ^ (116 - quotientLog s d) := by
    have hle : s * 2 ^ (116 - quotientLog s d) ≤ c * 2 ^ (116 - quotientLog s d) * d := by
      calc s * 2 ^ (116 - quotientLog s d) ≤ c * d * 2 ^ (116 - quotientLog s d) := Nat.mul_le_mul_right _ h
        _ = c * 2 ^ (116 - quotientLog s d) * d := by ring
    unfold significand
    obtain heq | hlt := hle.eq_or_lt
    · rw [heq, divNearestEven_exact _ hd]
    · exact (divNearestEven_bounds (a := 0) hd (by omega) hlt).2
  rw [fdiv64_value hs hs' hd hd']
  calc (significand s d : ℚ) * (2 : ℚ) ^ ((quotientLog s d : Int) - 116)
      ≤ (c * 2 ^ (116 - quotientLog s d) : Nat) * (2 : ℚ) ^ ((quotientLog s d : Int) - 116) :=
        mul_le_mul_of_nonneg_right (by exact_mod_cast hbound) (by positivity)
    _ = c := by
      push_cast
      rw [mul_assoc, scale_mul_unit (by omega), mul_one]

end

theorem b64Value_zero : b64Value 0 = 0 := by
  have hexp : b64Exp 0 = 0 := by decide
  have hfrac : b64Frac 0 = 0 := by decide
  rw [b64Value, if_pos hexp, hfrac, Nat.cast_zero, zero_mul, mul_zero]

/-- An integer is its own quotient by 1. -/
theorem b64Value_fdiv64_one {v : Nat} (hv : v < 2 ^ 32) : b64Value (fdiv64 v 1) = v := by
  obtain rfl | hpos := Nat.eq_zero_or_pos v
  · rw [fdiv64_zero, b64Value_zero, Nat.cast_zero]
  · obtain ⟨-, hhigh⟩ := quotientLog_range hpos hv one_pos (by norm_num)
    have hexact : significand v 1 = v * 2 ^ (116 - quotientLog v 1) := by
      have h := divNearestEven_exact (v * 2 ^ (116 - quotientLog v 1)) one_pos
      rwa [Nat.mul_one] at h
    rw [fdiv64_value hpos hv one_pos (by norm_num), hexact]
    push_cast
    rw [mul_assoc, scale_mul_unit (by omega), mul_one]

/-- R126 for s = 0: +0.0 is the quotient itself. -/
theorem fdiv64_zero_nearest (d : Nat) (b : BitVec 64) :
    |((0 : Nat) : ℚ) / d - b64Value (fdiv64 0 d)| ≤ |((0 : Nat) : ℚ) / d - b64Value b| := by
  rw [fdiv64_zero, b64Value_zero, Nat.cast_zero, zero_div, sub_self, abs_zero]
  exact abs_nonneg _

/-- Settles O29: the values of binary64 are integers in the quotient's units or lie below its binade, and `fdiv64`
rounds to the nearest integer. -/
theorem fdivNearestTiesToEven : Obligations.FdivNearestTiesToEven := by
  intro s d hs' hd hd'
  obtain rfl | hs := Nat.eq_zero_or_pos s
  · refine ⟨?_, fun b _ => ⟨fdiv64_zero_nearest d b, fun _ _ => ?_⟩, fun _ => fdiv64_zero d, fun h => absurd rfl h,
      fun _ => ?_⟩ <;> rw [fdiv64_zero]
    · unfold b64Finite
      decide
    · decide
    · rw [b64Value_zero]
      norm_num
  · have hd63 : d < 2 ^ 63 := by omega
    have hnormal := fdiv64_posNormal hs hs' hd hd63
    refine ⟨?_, fun b _ => ?_, fun h => absurd h hs.ne', fun _ => hnormal, fun h => ?_⟩
    · obtain ⟨-, -, hexp⟩ := hnormal
      unfold b64Finite
      omega
    · obtain ⟨hle, htie⟩ := fdiv64_nearest hs hs' hd hd63 b
      exact ⟨hle, fun heq hne => fdiv64_even hs hs' hd hd63 (htie heq hne)⟩
    · exact_mod_cast fdiv64_value_le hs hs' hd hd63 h

/-! ### The averages of queries (R127) -/

/-- The pattern of +0.0 or of a positive normal number. -/
def PlainAverage (b : BitVec 64) : Prop := b = 0x0000000000000000 ∨ b64PosNormal b

theorem fdiv64_plain {s d : Nat} (hs : s < 2 ^ 32) (hd : d < 2 ^ 63) : PlainAverage (fdiv64 s d) := by
  by_cases hzero : s = 0 ∨ d = 0
  · rw [fdiv64, if_pos hzero]
    exact .inl rfl
  · exact .inr (fdiv64_posNormal (by omega) hs (by omega) hd)

/-- The coordinates are signed, so no clamped index passes 2^31. -/
theorem footprint_lt_any (s : State) : s.footprint < 2 ^ 63 := by
  have hX : s.hiX ≤ 2 ^ 31 := by
    have h0 := BitVec.toInt_lt (x := s.snap.ops.qx0)
    have h1 := BitVec.toInt_lt (x := s.snap.ops.qx1)
    unfold State.hiX spanHigh
    omega
  have hY : s.hiY ≤ 2 ^ 31 := by
    have h0 := BitVec.toInt_lt (x := s.snap.ops.qy0)
    have h1 := BitVec.toInt_lt (x := s.snap.ops.qy1)
    unfold State.hiY spanHigh
    omega
  calc s.footprint ≤ 2 ^ 31 * 2 ^ 31 := Nat.mul_le_mul ((Nat.sub_le _ _).trans hX) ((Nat.sub_le _ _).trans hY)
    _ < 2 ^ 63 := by norm_num

theorem inRangeAnswer_plain {i : Instr} (h : isQuery i) (s : State) : PlainAverage (s.inRangeAnswer i).average := by
  rw [inRangeAnswer_average]
  obtain rfl | rfl | rfl | rfl := h
  · rw [ownResults_qsum]
    exact .inl rfl
  · rw [ownResults_qavg]
    exact fdiv64_plain (BitVec.isLt _) (footprint_lt_any s)
  · rw [ownResults_qnzc]
    exact .inl rfl
  · rw [ownResults_qnzavg]
    dsimp only
    split
    · exact .inl rfl
    · have hn := (s.fourTerms (ntCell s)).isLt
      exact fdiv64_plain (BitVec.isLt _) (by omega)

/-- Settles O30: a query leaves zeros, or its kind's answer, whose average is 0 or an `fdiv64`. -/
theorem averageIsNeverSpecial : Obligations.AverageIsNeverSpecial := by
  intro i s t hquery hexec
  obtain ⟨u, hu, -, hnoTable, hout, hin⟩ := exec_query_ends hquery s
  cases hu.symm.trans hexec
  cases hvalid : s.valid with
  | false =>
    rw [(hnoTable hvalid).2]
    exact .inl (by decide)
  | true =>
    by_cases hrect : s.rectOut
    · rw [(hout hvalid hrect).2]
      exact .inl (by decide)
    · obtain ⟨-, -, hres⟩ := hin hvalid hrect
      rw [hres]
      exact inRangeAnswer_plain hquery s

/-! ### A single cell and the full grid (R129) -/

/-- The rectangle of a query whose coordinates are inside the grid and in order. -/
structure Spans (s : State) (x0 x1 y0 y1 : Nat) : Prop where
  notOut : ¬s.rectOut
  loX : s.loX = x0
  hiX : s.hiX = x1
  loY : s.loY = y0
  hiY : s.hiY = y1

theorem spans_of_coords {s : State} (hdims : s.dimsLegal) {x0 x1 y0 y1 : Nat} (hx : x0 ≤ x1)
    (hx1 : x1 < s.builtWidth.toNat) (hy : y0 ≤ y1) (hy1 : y1 < s.builtHeight.toNat) (q0 : s.snap.ops.qx0.toNat = x0)
    (q1 : s.snap.ops.qx1.toNat = x1) (r0 : s.snap.ops.qy0.toNat = y0) (r1 : s.snap.ops.qy1.toNat = y1) :
    Spans s x0 (x1 + 1) y0 (y1 + 1) := by
  obtain ⟨-, hw, -, hh⟩ := hdims
  have i0 := BitVec.toInt_eq_toNat_of_lt (x := s.snap.ops.qx0) (by omega)
  have i1 := BitVec.toInt_eq_toNat_of_lt (x := s.snap.ops.qx1) (by omega)
  have j0 := BitVec.toInt_eq_toNat_of_lt (x := s.snap.ops.qy0) (by omega)
  have j1 := BitVec.toInt_eq_toNat_of_lt (x := s.snap.ops.qy1) (by omega)
  rw [q0] at i0
  rw [q1] at i1
  rw [r0] at j0
  rw [r1] at j1
  constructor
  · rw [State.rectOut, spanOut, spanOut, i0, i1, j0, j1]
    omega
  · rw [State.loX, spanLow, i0, i1]
    omega
  · rw [State.hiX, spanHigh, i0, i1]
    omega
  · rw [State.loY, spanLow, j0, j1]
    omega
  · rw [State.hiY, spanHigh, j0, j1]
    omega

/-- Over a single cell the value lookup is the cell, and QAVG divides by 1. -/
theorem singleCell {s : State} {g : Grid} {x y : Nat} (hvalid : s.valid = true) (hdims : s.dimsLegal)
    (htables : TablesOf s g s.builtWidth.toNat s.builtHeight.toNat) (hspan : Spans s x (x + 1) y (y + 1)) :
    (∃ t, exec .qsum s = .next t ∧ t.res.sum.toNat = (g x y).toNat) ∧
      ∃ t, exec .qavg s = .next t ∧ t.res.sum.toNat = (g x y).toNat ∧ b64Value t.res.average = (g x y).toNat := by
  obtain ⟨hrect, hx0, hx1, hy0, hy1⟩ := hspan
  have hlookup : (s.fourTerms (vtCell s)).toNat = (g x y).toNat := by
    rw [vtLookup_toNat hdims htables hrect, hx0, hx1, hy0, hy1, rectSum_cell, valueOf]
  have hfoot : s.footprint = 1 := by
    rw [State.footprint, hx0, hx1, hy0, hy1, Nat.add_sub_cancel_left, Nat.add_sub_cancel_left]
  obtain ⟨t, ht, -, htres⟩ := exec_query_inRange (i := .qsum) (.inl rfl) hvalid hrect
  obtain ⟨u, hu, -, hures⟩ := exec_query_inRange (i := .qavg) (.inr (.inl rfl)) hvalid hrect
  refine ⟨⟨t, ht, ?_⟩, u, hu, ?_, ?_⟩
  · rw [htres, (sumKind_answer (by decide)).2, hlookup]
  · rw [hures, (sumKind_answer (by decide)).2, hlookup]
  · rw [hures, inRangeAnswer_average, ownResults_qavg, hfoot, hlookup]
    exact b64Value_fdiv64_one ((g x y).isLt.trans (by norm_num))

/-- What QSUM, QNZC and QNZAVG answer where the two lookups give `a` and `b`. -/
theorem answers_of_lookups {s : State} {a b : Nat} (hvalid : s.valid = true) (hrect : ¬s.rectOut)
    (ha : (s.fourTerms (vtCell s)).toNat = a) (hb : (s.fourTerms (ntCell s)).toNat = b) :
    (∃ t, exec .qsum s = .next t ∧ t.res.sum.toNat = a) ∧ (∃ t, exec .qnzc s = .next t ∧ t.res.nzc.toNat = b) ∧
      ∃ t, exec .qnzavg s = .next t ∧ (b = 0 → t.res.average = 0x0000000000000000) ∧
        (b ≠ 0 → t.res.average = fdiv64 a b) := by
  obtain ⟨t, ht, -, htres⟩ := exec_query_inRange (i := .qsum) (.inl rfl) hvalid hrect
  obtain ⟨u, hu, -, hures⟩ := exec_query_inRange (i := .qnzc) (.inr (.inr (.inl rfl))) hvalid hrect
  obtain ⟨v, hv, -, hvres⟩ := exec_query_inRange (i := .qnzavg) (.inr (.inr (.inr rfl))) hvalid hrect
  refine ⟨⟨t, ht, ?_⟩, ⟨u, hu, ?_⟩, v, hv, ?_⟩
  · rw [htres, (sumKind_answer (by decide)).2, ha]
  · rw [hures, (countKind_answer (by decide)).2, hb]
  · rw [hvres, inRangeAnswer_average, ownResults_qnzavg, ← ha, ← hb]
    exact ⟨fun hzero => if_pos (BitVec.eq_of_toNat_eq hzero), fun hne => if_neg fun h => hne (by rw [h]; rfl)⟩

/-- The last column or row as a coordinate. -/
theorem toNat_sub_one {w : Word} (h : 1 ≤ w.toNat) : (w - 1).toNat = w.toNat - 1 :=
  BitVec.toNat_sub_of_le (BitVec.le_def.mpr h)

/-- Settles O25: the coordinates of a cell and of the full grid span just those cells. -/
theorem singleCellAndFullGrid : Obligations.SingleCellAndFullGrid := by
  intro s g hvalid hdims htables
  have ⟨hw, hw', hh, hh'⟩ := hdims
  refine ⟨fun x y hx hy q0 q1 r0 r1 => ?_, fun q0 r0 q1 r1 => ?_⟩
  · have nx : (BitVec.ofNat 32 x).toNat = x :=
      (BitVec.toNat_ofNat x 32).trans (Nat.mod_eq_of_lt (by omega))
    have ny : (BitVec.ofNat 32 y).toNat = y :=
      (BitVec.toNat_ofNat y 32).trans (Nat.mod_eq_of_lt (by omega))
    exact singleCell hvalid hdims htables (spans_of_coords hdims le_rfl hx le_rfl hy (by rw [q0, nx]) (by rw [q1, nx])
      (by rw [r0, ny]) (by rw [r1, ny]))
  · have hspan := spans_of_coords hdims (Nat.zero_le (s.builtWidth.toNat - 1)) (by omega)
      (Nat.zero_le (s.builtHeight.toNat - 1)) (by omega) (by rw [q0]; rfl) (by rw [q1, toNat_sub_one hw])
      (by rw [r0]; rfl) (by rw [r1, toNat_sub_one hh])
    rw [Nat.sub_add_cancel hw, Nat.sub_add_cancel hh] at hspan
    obtain ⟨hrect, hx0, hx1, hy0, hy1⟩ := hspan
    have hsum := vtLookup_toNat hdims htables hrect
    have hnzc := ntLookup_toNat hdims htables hrect
    rw [hx0, hx1, hy0, hy1] at hsum hnzc
    exact answers_of_lookups hvalid hrect hsum hnzc

end Sys2Proof.Machine
end
